-- ==== Sys2Proof/Word.lean ====
section
/-! DEFINITION. The byte, the 32-bit word and the pixel record (00_scope R8, R11). -/

namespace Sys2Proof

/-- A byte: 8 bits, numbered 7 (most significant) to 0 (00_scope R8). -/
abbrev Byte := BitVec 8

/-- A word of the host register space REG (20_memory R50). -/
abbrev Word := BitVec 32

/-- A pixel record of four bytes (00_scope R11); `a = 0` in every pixel of a 3-channel image. Two pixels
are equal when all four fields are. -/
structure Pixel where
  r : Byte
  g : Byte
  b : Byte
  a : Byte
  deriving DecidableEq, Repr, Inhabited

end Sys2Proof
end

