-- ==== Sys2Proof/Config.lean ====
section
/-! DEFINITION. The parameters of 00_scope R5 that a model takes as arguments (AW, MAGIC), and the free values
of 93_implementation_defined U1. -/

namespace Sys2Proof

/-- The two open parameters (00_scope R5; 92 D4, D7). A state carries them and no step changes them, so a
statement about every state holds for every AW and every MAGIC. -/
structure Config where
  /-- AW: the width of SRC and of the PIX address space. -/
  aw : Nat
  /-- MAGIC: header bytes 0..3, MAGIC[0] in the most significant byte. -/
  magic : BitVec 32
  deriving DecidableEq, Repr

/-- `1 ≤ AW` (00_scope R5), and AW at most 64, the bits the register map holds for SRC (10_state R36).
DEDUCED (safe), log 13. -/
abbrev Config.wf (c : Config) : Prop := 1 ≤ c.aw ∧ c.aw ≤ 64

/-- AW = 64, which the spec's examples use (DESIGN CHOICE, log 12), and the default MAGIC `qoif` of 30_encoding
R71 (PRESUMED by the spec itself from general knowledge, log 12). -/
def Config.standard : Config := { aw := 64, magic := 0x716F6966#32 }

/-- FREE VALUE (93 U1): the pixel a register holds when the spec calls its content unspecified; the n-th draw. -/
opaque Config.freePixel : Nat → Pixel

/-- FREE VALUE (93 U1): the bits a descriptor register holds after hardware reset; the n-th draw. -/
opaque Config.freeBits : Nat → BitVec 64

end Sys2Proof
end

