-- ==== Sys2Proof/Syntax.lean ====
section
/-! DEFINITION. The operations of the block: one constructor per row of spec/opcode_table.json. Chunk operands are
the stored (biased) fields of 30_encoding R82; `Instr.operands` gives the signed unbiased operands of 30 R87. -/

namespace Sys2Proof

inductive Instr where
  /-- INDEX: the pixel in cache slot `idx` (30 R76, 43 R163). -/
  | index (idx : BitVec 6)
  /-- DIFF: fields dR + 2, dG + 2, dB + 2 (30 R77, 43 R164). -/
  | diff (fr fg fb : BitVec 2)
  /-- LUMA: fields dG + 32, dR - dG + 8, dB - dG + 8 (30 R78, 43 R165). -/
  | luma (fg : BitVec 6) (frg fbg : BitVec 4)
  /-- RUN: field run length - 1 (30 R79, 43 R166). -/
  | run (n : BitVec 6)
  /-- RGB literal (30 R80, 43 R161). -/
  | rgb (r g b : Byte)
  /-- RGBA literal (30 R81, 43 R162). -/
  | rgba (r g b a : Byte)
  /-- HDR: the 14-byte header; MAGIC is a parameter, not an operand (30 R71, 40 R105). -/
  | hdr (width height : Word) (channels colorspace : Byte)
  /-- START: a host write of a word with bit 0 = 1 to CTRL (10 R25, 40 R100). -/
  | start
  deriving DecidableEq, Repr

/-- The six chunks, as opposed to the header and the command (30 R75). -/
def Instr.isChunk : Instr → Bool
  | .index _ | .diff _ _ _ | .luma _ _ _ | .run _ | .rgb _ _ _ | .rgba _ _ _ _ => true
  | .hdr _ _ _ _ | .start => false

/-- The row's length in bytes (30 R71, R75); START is a 32-bit register write (10 R36). -/
def Instr.byteLength : Instr → Nat
  | .index _ => 1
  | .diff _ _ _ => 1
  | .luma _ _ _ => 2
  | .run _ => 1
  | .rgb _ _ _ => 4
  | .rgba _ _ _ _ => 5
  | .hdr _ _ _ _ => 14
  | .start => 4

/-- The mnemonic of 30 R87. -/
def Instr.mnemonic : Instr → String
  | .index _ => "INDEX"
  | .diff _ _ _ => "DIFF"
  | .luma _ _ _ => "LUMA"
  | .run _ => "RUN"
  | .rgb _ _ _ => "RGB"
  | .rgba _ _ _ _ => "RGBA"
  | .hdr _ _ _ _ => "HDR"
  | .start => "START"

/-- The operands as 30 R87 writes them: signed and unbiased. -/
def Instr.operands : Instr → List Int
  | .index i => [i.toNat]
  | .diff fr fg fb => [fr.toNat - 2, fg.toNat - 2, fb.toNat - 2]
  | .luma fg frg fbg => [fg.toNat - 32, frg.toNat - 8, fbg.toNat - 8]
  | .run n => [n.toNat + 1]
  | .rgb r g b => [r.toNat, g.toNat, b.toNat]
  | .rgba r g b a => [r.toNat, g.toNat, b.toNat, a.toNat]
  | .hdr w h c s => [w.toNat, h.toNat, c.toNat, s.toNat]
  | .start => []

/-- How an encoded operation reaches the block. A header is known by its position, not by its bytes; a chunk by its
first byte; START by the register written (spec/opcode_table.json, notes of HDR and START). -/
inductive OpWord where
  /-- a word written to CTRL -/
  | ctrl (word : Word)
  /-- the bytes at offset 0 of a stream -/
  | header (bytes : List Byte)
  /-- the bytes at a chunk boundary of a stream -/
  | chunk (bytes : List Byte)
  deriving DecidableEq, Repr

end Sys2Proof
end

