-- ==== Sys2Proof/WellFormed.lean ====
section
/-! DEFINITION. Which operations have an encoding of their own. The field widths are in the types; what is left is
the run cap, which keeps RUN apart from the literal markers (30_encoding R79), and the header's operand ranges
(spec/opcode_table.json, HDR: width and height from 1, channels 3 or 4, colour space 0 or 1). -/

namespace Sys2Proof

/-- 30 R79: `n` in 0..61, so the byte is in 0xC0..0xFD. -/
def Instr.runInRange : Instr → Bool
  | .run n => decide (n.toNat ≤ 61)
  | _ => true

def Instr.headerDimensionsInRange : Instr → Bool
  | .hdr w h _ _ => w != 0#32 && h != 0#32
  | _ => true

def Instr.headerChannelsInRange : Instr → Bool
  | .hdr _ _ c _ => c == 3#8 || c == 4#8
  | _ => true

def Instr.headerColorspaceInRange : Instr → Bool
  | .hdr _ _ _ s => s == 0#8 || s == 1#8
  | _ => true

def Instr.wf (i : Instr) : Bool :=
  i.runInRange && i.headerDimensionsInRange && i.headerChannelsInRange && i.headerColorspaceInRange

end Sys2Proof
end

