-- ==== Sys2Proof/Decode.lean ====
section
/-! DEFINITION. Reading the encodings of 30_encoding (R71 to R81) and, after that, writing them. Decoding is total
on any bytes and rejects by name. -/

namespace Sys2Proof

/-- Why bytes or a register word are no operation. There is no illegal first byte of a chunk (30 R85): a chunk is
only ever rejected for being cut short. -/
inductive Reject where
  /-- the bytes end before the item does (44 R192) -/
  | truncated
  /-- header bytes 0..3 are not MAGIC (44 R182) -/
  | notMagic
  /-- header width or height is zero (HDR row: range from 1) -/
  | headerDimension
  /-- header byte 12 is neither 3 nor 4 (44 R182) -/
  | headerChannels
  /-- header byte 13 is neither 0 nor 1 (44 R182) -/
  | headerColorspace
  /-- a word with bit 0 clear written to CTRL is no command (10 R25) -/
  | noCommand
  deriving DecidableEq, Repr

/-- The bits `hi .. lo` of a byte, as a field of `n` bits (00_scope R8). -/
def field (b : Byte) (lo n : Nat) : BitVec n := b.extractLsb' lo n

/-- A big-endian 32-bit integer from its four bytes (20 R57). -/
def word32 (b0 b1 b2 b3 : Byte) : Word := b0 ++ b1 ++ b2 ++ b3

/-- Byte `k` of a word, 0 the most significant: the order in which 20 R57 emits them. -/
def wordByte (w : Word) (k : Nat) : Byte := w.extractLsb' (24 - 8 * k) 8

/-- ChunkLen of 30 R72: the two 8-bit markers before the 2-bit tag. -/
def chunkLen (b0 : Byte) : Nat :=
  if b0 = 0xFE#8 then 4
  else if b0 = 0xFF#8 then 5
  else if field b0 6 2 = 0b10#2 then 2
  else 1

/-- One chunk and the bytes after it (30 R72, R73, R76 to R81). -/
def decodeChunk : List Byte → Except Reject (Instr × List Byte)
  | [] => .error .truncated
  | b0 :: rest =>
    if b0 = 0xFE#8 then
      match rest with
      | r :: g :: b :: rest => .ok (.rgb r g b, rest)
      | _ => .error .truncated
    else if b0 = 0xFF#8 then
      match rest with
      | r :: g :: b :: a :: rest => .ok (.rgba r g b a, rest)
      | _ => .error .truncated
    else if field b0 6 2 = 0b00#2 then
      .ok (.index (field b0 0 6), rest)
    else if field b0 6 2 = 0b01#2 then
      .ok (.diff (field b0 4 2) (field b0 2 2) (field b0 0 2), rest)
    else if field b0 6 2 = 0b10#2 then
      match rest with
      | b1 :: rest => .ok (.luma (field b0 0 6) (field b1 4 4) (field b1 0 4), rest)
      | _ => .error .truncated
    else
      .ok (.run (field b0 0 6), rest)

/-- The header at offset 0 of a stream (30 R71; 44 R182); its operand ranges are those of the HDR row. -/
def decodeHeader (magic : BitVec 32) : List Byte → Except Reject Instr
  | m0 :: m1 :: m2 :: m3 :: w0 :: w1 :: w2 :: w3 :: h0 :: h1 :: h2 :: h3 :: c :: s :: _ =>
    if word32 m0 m1 m2 m3 ≠ magic then .error .notMagic
    else
      let i := Instr.hdr (word32 w0 w1 w2 w3) (word32 h0 h1 h2 h3) c s
      if !i.headerDimensionsInRange then .error .headerDimension
      else if !i.headerChannelsInRange then .error .headerChannels
      else if !i.headerColorspaceInRange then .error .headerColorspace
      else .ok i
  | _ => .error .truncated

/-- A word written to CTRL: only bit 0 matters (10 R25). -/
def decodeCtrl (w : Word) : Except Reject Instr :=
  if w.getLsbD 0 then .ok .start else .error .noCommand

/-- The operation an encoded word stands for, whichever way it reaches the block. -/
def decodeOp (magic : BitVec 32) : OpWord → Except Reject Instr
  | .ctrl w => decodeCtrl w
  | .header bs => decodeHeader magic bs
  | .chunk bs => (decodeChunk bs).map Prod.fst

/-- `n` bytes of a number, least significant first: the table's first byte is bits 7..0. -/
def bytesOf : Nat → Nat → List Byte
  | 0, _ => []
  | n + 1, w => BitVec.ofNat 8 w :: bytesOf n (w / 256)

/-- The operation word the table's number `w` of `nbits` bits stands for: 112 bits are a header, 32 bits with bit 0
set a CTRL write (bit 0 of RGB's marker 0xFE is clear), anything else a chunk, padded with zeros to the longest
chunk. DESIGN CHOICE (safe), log 20. -/
def tableOp (nbits w : Nat) : OpWord :=
  let w := w % 2 ^ nbits
  if nbits = 112 then .header (bytesOf 14 w)
  else if nbits = 32 ∧ w % 2 = 1 then .ctrl (BitVec.ofNat 32 w)
  else .chunk (bytesOf 5 w)

/-- The operation the decoder reads from a word of the opcode table, with the default MAGIC. -/
def decodeTableWord (nbits w : Nat) : Option Instr :=
  (decodeOp Config.standard.magic (tableOp nbits w)).toOption

/-! The encoder, from the same layouts. -/

/-- 30 R76: `00 idx`. -/
def packIndex (idx : BitVec 6) : Byte := 0b00#2 ++ idx

/-- 30 R77: `01 fr fg fb`, most significant first. -/
def packDiff (fr fg fb : BitVec 2) : Byte := 0b01#2 ++ fr ++ fg ++ fb

/-- 30 R78, first byte: `10 fg`. -/
def packLumaFirst (fg : BitVec 6) : Byte := 0b10#2 ++ fg

/-- 30 R78, second byte: `frg fbg`. -/
def packLumaSecond (frg fbg : BitVec 4) : Byte := frg ++ fbg

/-- 30 R79: `11 n`. -/
def packRun (n : BitVec 6) : Byte := 0b11#2 ++ n

/-- 30 R71: MAGIC, width, height (big-endian, 20 R57), channel count, colour-space tag. -/
def packHeader (magic width height : BitVec 32) (channels colorspace : Byte) : List Byte :=
  [wordByte magic 0, wordByte magic 1, wordByte magic 2, wordByte magic 3,
   wordByte width 0, wordByte width 1, wordByte width 2, wordByte width 3,
   wordByte height 0, wordByte height 1, wordByte height 2, wordByte height 3,
   channels, colorspace]

/-- The word of an operation. -/
def encode (magic : BitVec 32) : Instr → OpWord
  | .index idx => .chunk [packIndex idx]
  | .diff fr fg fb => .chunk [packDiff fr fg fb]
  | .luma fg frg fbg => .chunk [packLumaFirst fg, packLumaSecond frg fbg]
  | .run n => .chunk [packRun n]
  | .rgb r g b => .chunk [0xFE#8, r, g, b]
  | .rgba r g b a => .chunk [0xFF#8, r, g, b, a]
  | .hdr w h c s => .header (packHeader magic w h c s)
  | .start => .ctrl 1#32

/-- The bytes an operation puts into a stream; START puts none itself. -/
def OpWord.bytes : OpWord → List Byte
  | .ctrl _ => []
  | .header bs => bs
  | .chunk bs => bs

end Sys2Proof
end

