-- ==== Sys2Proof/Machine/State.lean ====
section
/-! DEFINITION. The state of the block (10_state R20), the pixel address space (20_memory R50), what the outside
world is about to do (70 R242), and the reasons a step can stop. Plain data. -/

namespace Sys2Proof.Machine

/-- PHASE (10 R22): 0 IDLE, 1 WALK, 2 DONE. -/
inductive Phase where
  | idle
  | walk
  | done
  deriving DecidableEq, Repr

/-- One slot of the colour-history cache (10 R30): the valid bit and the pixel, which is unspecified and unread
while the bit is 0. -/
structure Slot where
  valid : Bool
  px : Pixel
  deriving DecidableEq, Repr

/-- PIX (20 R50): addresses strictly rising; an address that is not listed is not readable memory (log 10). -/
abbrev Memory := List Host.Cell

/-- The width of a host access to REG (20 R59: only aligned words have a meaning). -/
inductive AccessSize where
  | byte
  | half
  | word
  deriving DecidableEq, Repr

/-- One move of the outside world, taking one step each (70 R242). The list `State.moves` is the model's way to say
which agent moves next (DESIGN CHOICE, safe, log 1). -/
inductive Move where
  /-- the host lets this step pass; the encoder takes it -/
  | wait
  /-- the host writes a REG register at a byte offset (10 R36) -/
  | write (size : AccessSize) (offset : Nat) (data : Word)
  /-- the host reads a REG register; the answer is in `busData` -/
  | read (size : AccessSize) (offset : Nat)
  /-- the host writes a byte of PIX (20 R50) -/
  | pixWrite (addr : Nat) (data : Byte)
  /-- hardware reset (70 R230) -/
  | reset
  /-- a bench move of the model's own: one encoded operation is handed to the bit-packer or the header framer by
  itself (DESIGN CHOICE, safe, log 2) -/
  | op (w : OpWord)
  deriving DecidableEq, Repr

/-- The machine. -/
structure State where
  /-- AW and MAGIC (00_scope R5); no step changes them -/
  config : Config
  /-- SRC (10 R21): AW bits, the bits at and above AW are 0 -/
  src : BitVec 64
  /-- WIDTH (10 R21) -/
  width : Word
  /-- HEIGHT (10 R21) -/
  height : Word
  /-- CHANNELS (10 R21) -/
  channels : Byte
  /-- COLORSPACE (10 R21) -/
  colorspace : Byte
  /-- PHASE (10 R22) -/
  phase : Phase
  /-- PIX_IDX (10 R33) -/
  pixIdx : BitVec 64
  /-- PREV (10 R29); unspecified and unread while `prevValid` is false -/
  prev : Pixel
  /-- PREV_VALID (10 R29) -/
  prevValid : Bool
  /-- RUN (10 R31) -/
  run : BitVec 6
  /-- CACHE[0..63] (10 R30) -/
  cache : Vector Slot 64
  /-- ERR (10 R26) -/
  err : Byte
  /-- OUT_LEN (10 R27) -/
  outLen : BitVec 67
  /-- OUT (20 R55): the bytes the sink has accepted since the most recent START step began -/
  out : List Byte
  /-- PIX (20 R50, R51), the host's memory -/
  pix : Memory
  /-- the outside world's pending moves, oldest first; none, or a `wait`: the encoder moves (model's own, log 1) -/
  moves : List Move
  /-- the word the host's last read of REG returned (10 R36; model's own, log 14) -/
  busData : Word
  /-- whether the sink accepts bytes in this step (20 R55; model's own, log 4) -/
  sinkReady : Bool
  /-- the levels of `sinkReady` in the coming steps; when none is left the level stays (model's own, log 4) -/
  sinkLevels : List Bool
  /-- how many free values have been drawn (model's own, log 8) -/
  draws : Nat
  deriving DecidableEq, Repr

/-- The machine stops because an address does not exist. The block's own errors are codes in ERR and next states
(60 R200). -/
inductive Fault where
  /-- raised by a host write to a PIX address at or above 2^AW, which does not exist (20 R52); safe -/
  | pixAddressAbsent (addr : Nat)
  deriving DecidableEq, Repr

/-- The spec gives the move no meaning (`refuse` in 93_implementation_defined), or an operation is not modelled. -/
inductive Refusal where
  /-- raised by `exec` for an operation without a meaning; no arm raises it; safe -/
  | notModelled (mnemonic : String)
  /-- raised by a PIXEL step that reads a byte that is not readable memory (93 U3; 20 R65); safe -/
  | pixUnreadable (addr : Nat)
  /-- raised by a PIXEL step whose byte address runs past 2^AW (93 U3; 20 R65: no wrap-around); safe -/
  | pixPastAddressSpace (addr : Nat)
  /-- raised by a host write to a byte of the pixel buffer while PHASE = WALK (93 U2; 20 R64); safe -/
  | pixChangedDuringEncode (addr : Nat)
  /-- raised by a host access to REG that is not an aligned 32-bit word (93 U7; 20 R59); safe -/
  | regAccessNotWord (offset : Nat)
  /-- raised by a bench move whose word is no operation (log 2); safe -/
  | undecodable (why : Reject)
  deriving DecidableEq, Repr

/-- The pixel the model names where the spec leaves a pixel register unspecified after reset (DESIGN CHOICE, unsafe,
log 7). -/
def unspecifiedPixel : Pixel := { r := 0#8, g := 0#8, b := 0#8, a := 0#8 }

/-- Right after hardware reset (70 R230; 10 R37). SRC, WIDTH, HEIGHT, CHANNELS and COLORSPACE are unspecified there
and are 0 here (DESIGN CHOICE, unsafe, log 6); so are PREV and the pixels of the invalid slots (log 7). -/
def State.reset : State where
  config := Config.standard
  src := 0#64
  width := 0#32
  height := 0#32
  channels := 0#8
  colorspace := 0#8
  phase := .idle
  pixIdx := 0#64
  prev := unspecifiedPixel
  prevValid := false
  run := 0#6
  cache := Vector.replicate 64 { valid := false, px := unspecifiedPixel }
  err := 0#8
  outLen := 0#67
  out := []
  pix := []
  moves := []
  busData := 0#32
  sinkReady := true
  sinkLevels := []
  draws := 0

end Sys2Proof.Machine
end

