-- ==== Sys2Proof/Machine/Operands.lean ====
section
/-! DEFINITION. The arithmetic of the block (00_scope R9; 43 R168) and how operands become fields: channel deltas,
biases, the pixel hash. -/

namespace Sys2Proof.Machine

/-- Wrap-around byte subtraction, `current - previous` (00_scope R9; 43 R169). -/
def sub8 (a b : Byte) : Byte := a - b

/-- Wrap-around byte addition (00_scope R9). -/
def add8 (a b : Byte) : Byte := a + b

/-- A byte as a two's-complement value in -128..127 (00_scope R9). -/
def s8 (v : Byte) : Int := v.toInt

/-- The deltas of the three colour channels, each `sub8 p q` (42 R148), in R, G, B order. -/
structure Deltas where
  dR : Byte
  dG : Byte
  dB : Byte
  deriving DecidableEq, Repr

/-- 42 R148: deltas of the current pixel `p` from the previous pixel `q`. -/
def deltas (p q : Pixel) : Deltas :=
  { dR := sub8 p.r q.r, dG := sub8 p.g q.g, dB := sub8 p.b q.b }

/-- dRG of 42 R149. -/
def Deltas.dRG (d : Deltas) : Byte := sub8 d.dR d.dG

/-- dBG of 42 R149. -/
def Deltas.dBG (d : Deltas) : Byte := sub8 d.dB d.dG

/-- A delta rebiased by a constant and cut to its field (30 R82; 43 R168). -/
def biased (n : Nat) (bias d : Byte) : BitVec n := (add8 d bias).setWidth n

/-- The fields of OP_DIFF (43 R164). -/
def opDiff (p q : Pixel) : Instr :=
  let d := deltas p q
  .diff (biased 2 2#8 d.dR) (biased 2 2#8 d.dG) (biased 2 2#8 d.dB)

/-- The fields of OP_LUMA (43 R165). -/
def opLuma (p q : Pixel) : Instr :=
  let d := deltas p q
  .luma (biased 6 32#8 d.dG) (biased 4 8#8 d.dRG) (biased 4 8#8 d.dBG)

/-- OP_RUN(n): the stored field is `n - 1` (43 R166; 92 D6). -/
def opRun (n : BitVec 6) : Instr := .run (n - 1#6)

/-- OP_RGB (43 R161). -/
def opRgb (p : Pixel) : Instr := .rgb p.r p.g p.b

/-- OP_RGBA (43 R162). -/
def opRgba (p : Pixel) : Instr := .rgba p.r p.g p.b p.a

/-- HASH (41 R120): natural-number arithmetic, then mod 64. -/
def hash (p : Pixel) : BitVec 6 :=
  BitVec.ofNat 6 ((3 * p.r.toNat + 5 * p.g.toNat + 7 * p.b.toNat + 11 * p.a.toNat) % 64)

/-- The largest run one chunk carries, RUN_MAX (00_scope R5; 42 R144). -/
def runMax : BitVec 6 := 62#6

/-- SRC has AW bits: the others do not exist and read 0 (10 R36). -/
def truncAw (c : Config) (v : BitVec 64) : BitVec 64 := BitVec.ofNat 64 (v.toNat % 2 ^ c.aw)

end Sys2Proof.Machine
end

