-- ==== Sys2Proof/Machine/Flags.lean ====
section
/-! DEFINITION. The block has no condition codes (10 R34). Here are the predicates a step computes (42 R147, R148,
R149), the validation codes (40 R103) and the status word (10 R23). -/

namespace Sys2Proof.Machine

/-- A delta in -2..1 (42 R148). -/
def fitsDiff (d : Byte) : Bool := decide (-2 ≤ s8 d ∧ s8 d ≤ 1)

/-- DIFF_FITS (42 R148). -/
def diffFits (p q : Pixel) : Bool :=
  let d := deltas p q
  fitsDiff d.dR && fitsDiff d.dG && fitsDiff d.dB

/-- LUMA_FITS (42 R149): the cross deltas are wrapped before they are tested. -/
def lumaFits (p q : Pixel) : Bool :=
  let d := deltas p q
  decide (-32 ≤ s8 d.dG ∧ s8 d.dG ≤ 31) && decide (-8 ≤ s8 d.dRG ∧ s8 d.dRG ≤ 7)
    && decide (-8 ≤ s8 d.dBG ∧ s8 d.dBG ≤ 7)

/-- The alpha gate (42 R147); the alpha of every 3-channel pixel is 0 (00_scope R11). -/
def alphaGate (p q : Pixel) : Bool := p.a == q.a

/-- VALIDATE (40 R103): the code of the first check that fails, 0 if none does (60 R201, R202). -/
def validate (src : BitVec 64) (width height : Word) (channels colorspace : Byte) : Byte :=
  if src = 0#64 then 1#8
  else if width = 0#32 ∨ height = 0#32 then 2#8
  else if channels ≠ 3#8 ∧ channels ≠ 4#8 then 3#8
  else if colorspace ≠ 0#8 ∧ colorspace ≠ 1#8 then 4#8
  else 0#8

/-- VALIDATE of the descriptor registers. -/
def State.validation (s : State) : Byte := validate s.src s.width s.height s.channels s.colorspace

/-- The number of PHASE (10 R22). -/
def Phase.code : Phase → BitVec 2
  | .idle => 0#2
  | .walk => 1#2
  | .done => 2#2

/-- STATUS (10 R23): bit 0 BUSY, bit 1 DONE, the rest 0. -/
def statusWord (s : State) : Word :=
  match s.phase with
  | .idle => 0b00#32
  | .walk => 0b01#32
  | .done => 0b10#32

end Sys2Proof.Machine
end

