-- ==== Sys2Proof/Machine/Ops.lean ====
section
/-! DEFINITION. The named operations over memory and registers: MemRead, PixByte, FetchPixel (20 R52 to R54), Emit
(20 R56), LOOKUP, HIT, STORE (41 R123, R124), INIT (40 R101), raise Err (60 R204), hardware reset (70 R230). -/

namespace Sys2Proof.Machine

/-- The byte at an address of PIX; none where there is no readable memory (20 R52, R65). -/
def Memory.read : Memory → Nat → Option Byte
  | [], _ => none
  | (b, v) :: m, a => if a = b then some v else Memory.read m a

/-- A byte written by the host; the list stays in its canonical form. -/
def Memory.write : Memory → Nat → Byte → Memory
  | [], a, v => [(a, v)]
  | (b, w) :: m, a, v =>
    if a < b then (a, v) :: (b, w) :: m
    else if a = b then (a, v) :: m
    else (b, w) :: Memory.write m a v

/-- The canonical form: addresses strictly rising. -/
abbrev Memory.wf (m : Memory) : Prop := m.Pairwise fun x y => x.1 < y.1

/-- The number of pixels, WIDTH x HEIGHT (10 R33). -/
def State.pixels (s : State) : Nat := s.width.toNat * s.height.toNat

/-- N, the length of the pixel buffer (20 R51). -/
def State.bufferLength (s : State) : Nat := s.pixels * s.channels.toNat

/-- PixByte(k) (20 R53): byte `k` of the buffer, without wrap-around. A byte past the address space or not readable
is refused (20 R65; 93 U3), when it is read (log 10, 11). -/
def pixByte (s : State) (k : Nat) : Except Refusal Byte :=
  let addr := s.src.toNat + k
  if 2 ^ s.config.aw ≤ addr then .error (.pixPastAddressSpace addr)
  else
    match s.pix.read addr with
    | some v => .ok v
    | none => .error (.pixUnreadable addr)

/-- FetchPixel(i) (20 R54). CHANNELS is 3 or 4 in every WALK a run reaches; any other value counts as 3 (log 17). -/
def fetchPixel (s : State) (i : Nat) : Except Refusal Pixel :=
  let c := s.channels.toNat
  match pixByte s (c * i + 0), pixByte s (c * i + 1), pixByte s (c * i + 2) with
  | .ok r, .ok g, .ok b =>
    if s.channels = 4#8 then
      match pixByte s (c * i + 3) with
      | .ok a => .ok { r := r, g := g, b := b, a := a }
      | .error e => .error e
    else .ok { r := r, g := g, b := b, a := 0#8 }
  | .error e, _, _ => .error e
  | _, .error e, _ => .error e
  | _, _, .error e => .error e

/-- Emit(b) (20 R56). -/
def State.emit (s : State) (b : Byte) : State :=
  { s with out := s.out ++ [b], outLen := s.outLen + 1#67 }

/-- Consecutive Emits, first byte first (20 R56). -/
def State.emitAll : State → List Byte → State
  | s, [] => s
  | s, b :: bs => (s.emit b).emitAll bs

/-- CACHE[i] (10 R30). -/
def slotAt (cache : Vector Slot 64) (i : BitVec 6) : Slot := cache.get ⟨i.toNat, i.isLt⟩

/-- LOOKUP(i) (41 R123): none is `empty`. -/
def lookup (cache : Vector Slot 64) (i : BitVec 6) : Option Pixel :=
  if (slotAt cache i).valid then some (slotAt cache i).px else none

/-- HIT(p) (41 R123): an empty slot never hits. -/
def hit (cache : Vector Slot 64) (p : Pixel) : Bool := lookup cache (hash p) == some p

/-- STORE(p) (41 R124), on a cache. -/
def storePixel (cache : Vector Slot 64) (p : Pixel) : Vector Slot 64 :=
  cache.set (hash p).toNat { valid := true, px := p } (hash p).isLt

/-- STORE(p) and PREV <- p, PREV_VALID <- 1 (42 R151). -/
def State.remember (s : State) (p : Pixel) : State :=
  { s with cache := storePixel s.cache p, prev := p, prevValid := true }

/-- 64 empty slots, whose pixels are free values (93 U1). -/
def emptyCache (n : Nat) : Vector Slot 64 :=
  ⟨⟨(List.range 64).map fun i => { valid := false, px := Config.freePixel (n + i) }⟩, by simp⟩

/-- INIT (40 R101). PREV and the slots' pixels become unspecified: free values (log 9). -/
def State.init (s : State) : State :=
  { s with
    out := []
    outLen := 0#67
    err := 0#8
    pixIdx := 0#64
    run := 0#6
    prevValid := false
    prev := Config.freePixel (s.draws + 64)
    cache := emptyCache s.draws
    draws := s.draws + 65 }

/-- `raise Err(e)` (60 R204): the whole of the block's error entry. Nothing is saved; there is no vector and no
return operation (60 R207). -/
def State.raiseErr (s : State) (e : Byte) : State := { s with err := e, phase := .done }

/-- Hardware reset as a step of its own, in any phase (70 R230; 93 U6). The descriptor registers become
unspecified: free values (log 8). PIX and what the outside world does next are not the block's. -/
def State.hardwareReset (s : State) : State :=
  let t := s.init
  { t with
    phase := .idle
    src := truncAw s.config (Config.freeBits t.draws)
    width := (Config.freeBits (t.draws + 1)).setWidth 32
    height := (Config.freeBits (t.draws + 2)).setWidth 32
    channels := (Config.freeBits (t.draws + 3)).setWidth 8
    colorspace := (Config.freeBits (t.draws + 4)).setWidth 8
    draws := t.draws + 5 }

/-- The readiness the sink presents in this step (20 R55; log 4). -/
def State.sinkTick (s : State) : State :=
  match s.sinkLevels with
  | [] => s
  | l :: ls => { s with sinkReady := l, sinkLevels := ls }

/-- Back-pressure (70 R237): a step that emits waits, unchanged, while the sink is not ready. -/
def offered (emits : Bool) (waiting : State) (o : Host.Outcome State Fault Refusal) : Host.Outcome State Fault Refusal :=
  if emits && !waiting.sinkReady then .next waiting else o

end Sys2Proof.Machine
end

