-- ==== Sys2Proof/Machine/Chunks.lean ====
section
/-! DEFINITION. The six chunk operations (43 R160 to R166): each appends its bytes through Emit and does nothing
else. Their preconditions are the caller's (log 18). -/

namespace Sys2Proof.Machine

/-- OP_INDEX (43 R163). -/
def execIndex (idx : BitVec 6) (s : State) : Host.Outcome State Fault Refusal :=
  .next (s.emit (packIndex idx))

/-- OP_DIFF (43 R164). -/
def execDiff (fr fg fb : BitVec 2) (s : State) : Host.Outcome State Fault Refusal :=
  .next (s.emit (packDiff fr fg fb))

/-- OP_LUMA (43 R165). -/
def execLuma (fg : BitVec 6) (frg fbg : BitVec 4) (s : State) : Host.Outcome State Fault Refusal :=
  .next ((s.emit (packLumaFirst fg)).emit (packLumaSecond frg fbg))

/-- OP_RUN (43 R166). -/
def execRun (n : BitVec 6) (s : State) : Host.Outcome State Fault Refusal :=
  .next (s.emit (packRun n))

/-- OP_RGB (43 R161). -/
def execRgb (r g b : Byte) (s : State) : Host.Outcome State Fault Refusal :=
  .next (s.emitAll [0xFE#8, r, g, b])

/-- OP_RGBA (43 R162). -/
def execRgba (r g b a : Byte) (s : State) : Host.Outcome State Fault Refusal :=
  .next (s.emitAll [0xFF#8, r, g, b, a])

end Sys2Proof.Machine
end

