-- ==== Sys2Proof/Machine/Command.lean ====
section
/-! DEFINITION. The header (40 R105) and the START command (40 R100 to R107). -/

namespace Sys2Proof.Machine

/-- EmitHeader (40 R105); MAGIC is the parameter. -/
def execHdr (width height : Word) (channels colorspace : Byte) (s : State) : Host.Outcome State Fault Refusal :=
  .next (s.emitAll (packHeader s.config.magic width height channels colorspace))

/-- StartStep (40 R107), in IDLE and DONE; a START in WALK is ignored (40 R100). -/
def execStart (s : State) : Host.Outcome State Fault Refusal :=
  if s.phase = .walk then .next s
  else
    let t := s.init
    if s.validation ≠ 0#8 then .next (t.raiseErr s.validation)
    else
      match execHdr t.width t.height t.channels t.colorspace t with
      | .next u => .next { u with phase := .walk }
      | o => o

/-- Whether the operation emits a byte in this state: what a sink that is not ready delays. A START emits the header
if it passes validation (43 R171). -/
def emitsNow (i : Instr) (s : State) : Bool :=
  match i with
  | .start => decide (s.phase ≠ .walk) && decide (s.validation = 0#8)
  | .index _ | .diff _ _ _ | .luma _ _ _ | .run _ | .rgb _ _ _ | .rgba _ _ _ _ | .hdr _ _ _ _ => true

end Sys2Proof.Machine
end

