-- ==== Sys2Proof/Machine/Dispatch.lean ====
section
/-! DEFINITION. One arm per operation. -/

namespace Sys2Proof.Machine

def exec (i : Instr) (s : State) : Host.Outcome State Fault Refusal :=
  match i with
  | .index idx => Sys2Proof.Machine.execIndex idx s
  | .diff fr fg fb => Sys2Proof.Machine.execDiff fr fg fb s
  | .luma fg frg fbg => Sys2Proof.Machine.execLuma fg frg fbg s
  | .run n => Sys2Proof.Machine.execRun n s
  | .rgb r g b => Sys2Proof.Machine.execRgb r g b s
  | .rgba r g b a => Sys2Proof.Machine.execRgba r g b a s
  | .hdr width height channels colorspace => Sys2Proof.Machine.execHdr width height channels colorspace s
  | .start => Sys2Proof.Machine.execStart s

end Sys2Proof.Machine
end

