-- ==== Sys2Proof/Machine/Selector.lean ====
section
/-! DEFINITION. The chunk selector (42_chunk_selector): the PIXEL step, the FINISH step, and which of them the
encoder takes (R140). -/

namespace Sys2Proof.Machine

/-- LITERAL(p) (42 R150; 92 D8): the marker follows CHANNELS (any value but 4 counts as 3, log 17). -/
def literal (s : State) (p : Pixel) : Instr :=
  if s.channels = 4#8 then opRgba p else opRgb p

/-- The pixel extends a run (42 R143). -/
def continuesRun (s : State) (p : Pixel) : Bool := s.prevValid && p == s.prev

/-- RUN after a run continuation (42 R144): 62 is flushed at once. -/
def runAfter (s : State) : BitVec 6 := if s.run + 1#6 = runMax then 0#6 else s.run + 1#6

/-- The chunk of a pixel that does not extend a run (42 R142, R146 to R150), in the fixed precedence of R152. -/
def classify (s : State) (p : Pixel) : Instr :=
  if !s.prevValid then literal s p
  else if hit s.cache p then .index (hash p)
  else if alphaGate p s.prev && diffFits p s.prev then opDiff p s.prev
  else if alphaGate p s.prev && lumaFits p s.prev then opLuma p s.prev
  else literal s p

/-- The pending run, if any, as a chunk (42 R145, R153). -/
def flushed (s : State) : List Instr := if s.run = 0#6 then [] else [opRun s.run]

/-- The operations a PIXEL step hands to the bit-packer, in order (42 R141). -/
def selected (s : State) (p : Pixel) : List Instr :=
  if continuesRun s p then (if s.run + 1#6 = runMax then [opRun runMax] else [])
  else flushed s ++ [classify s p]

/-- Operations executed one after the other. -/
def runOps : List Instr → State → Host.Outcome State Fault Refusal
  | [], s => .next s
  | i :: is, s =>
    match exec i s with
    | .next t => runOps is t
    | o => o

/-- The registers a PIXEL step writes besides OUT and OUT_LEN (42 R141, R151). -/
def afterPixel (s : State) (p : Pixel) : State :=
  if continuesRun s p then { s with run := runAfter s, pixIdx := s.pixIdx + 1#64 }
  else { s.remember p with run := 0#6, pixIdx := s.pixIdx + 1#64 }

/-- The PIXEL step on a fetched pixel: the chunks are chosen on the cache, PREV and RUN as they were before this
pixel (42 R151). -/
def pixelStepOn (s : State) (p : Pixel) : Host.Outcome State Fault Refusal :=
  match runOps (selected s p) s with
  | .next t => .next (afterPixel t p)
  | o => o

/-- The PIXEL step (42 R141). -/
def pixelStep (s : State) : Host.Outcome State Fault Refusal :=
  match fetchPixel s s.pixIdx.toNat with
  | .ok p => pixelStepOn s p
  | .error r => .refused r

/-- The FINISH step (42 R153). -/
def finishStep (s : State) : Host.Outcome State Fault Refusal :=
  match runOps (flushed s) s with
  | .next t => .next { t with run := 0#6, phase := .done }
  | o => o

/-- Whether the encoder's next step emits a byte: what a sink that is not ready delays (70 R237). -/
def encoderEmits (s : State) : Bool :=
  if s.pixIdx.toNat < s.pixels then
    match fetchPixel s s.pixIdx.toNat with
    | .ok p => !(selected s p).isEmpty
    | .error _ => false
  else !(flushed s).isEmpty

/-- The encoder's step (42 R140). In IDLE and DONE, and past the last pixel (which no run reaches), none is enabled:
the block is quiescent and the state stays as it is (log 16). -/
def encoderStep (s : State) : Host.Outcome State Fault Refusal :=
  if s.phase = .walk then
    if s.pixIdx.toNat < s.pixels then offered (encoderEmits s) s (pixelStep s)
    else if s.pixIdx.toNat = s.pixels then offered (encoderEmits s) s (finishStep s)
    else .next s
  else .next s

end Sys2Proof.Machine
end

