-- ==== Sys2Proof/Machine/Bus.lean ====
section
/-! DEFINITION. What the outside world can do (70 R242): the REG space (10 R36), PIX, hardware reset, and the
model's bench move. -/

namespace Sys2Proof.Machine

/-- A 32-bit word of the register map (10 R36). -/
inductive Reg where
  | ctrl
  | status
  | err
  | width
  | height
  | channels
  | colorspace
  | srcLow
  | srcHigh
  | outLen0
  | outLen1
  | outLen2
  deriving DecidableEq, Repr

/-- The register at a byte offset (10 R36); none at the offsets the map does not list. -/
def regAt : Nat → Option Reg
  | 0x00 => some .ctrl
  | 0x04 => some .status
  | 0x08 => some .err
  | 0x0C => some .width
  | 0x10 => some .height
  | 0x14 => some .channels
  | 0x18 => some .colorspace
  | 0x20 => some .srcLow
  | 0x24 => some .srcHigh
  | 0x28 => some .outLen0
  | 0x2C => some .outLen1
  | 0x30 => some .outLen2
  | _ => none

/-- What a read of a register returns (10 R21, R23, R25, R26, R27, R36). -/
def regRead (s : State) : Reg → Word
  | .ctrl => 0#32
  | .status => statusWord s
  | .err => s.err.setWidth 32
  | .width => s.width
  | .height => s.height
  | .channels => s.channels.setWidth 32
  | .colorspace => s.colorspace.setWidth 32
  | .srcLow => s.src.extractLsb' 0 32
  | .srcHigh => s.src.extractLsb' 32 32
  | .outLen0 => s.outLen.extractLsb' 0 32
  | .outLen1 => s.outLen.extractLsb' 32 32
  | .outLen2 => (s.outLen.extractLsb' 64 3).setWidth 32

/-- A read of any aligned offset; the offsets not listed read 0 (10 R36). -/
def busRead (s : State) (offset : Nat) : Word :=
  match regAt offset with
  | some r => regRead s r
  | none => 0#32

/-- A write to a register other than CTRL: ignored in WALK (10 R24); the read-only registers ignore it always
(10 R23; 93 U7). -/
def regWrite (s : State) (r : Reg) (w : Word) : State :=
  if s.phase = .walk then s
  else
    match r with
    | .width => { s with width := w }
    | .height => { s with height := w }
    | .channels => { s with channels := w.setWidth 8 }
    | .colorspace => { s with colorspace := w.setWidth 8 }
    | .srcLow => { s with src := truncAw s.config (s.src.extractLsb' 32 32 ++ w) }
    | .srcHigh => { s with src := truncAw s.config (w ++ s.src.extractLsb' 0 32) }
    | .ctrl | .status | .err | .outLen0 | .outLen1 | .outLen2 => s

/-- An encoded operation is decoded and executed; `waiting` is the state to stay in while the sink is not ready. -/
def command (w : OpWord) (waiting s : State) : Host.Outcome State Fault Refusal :=
  match decodeOp s.config.magic w with
  | .ok i => offered (emitsNow i s) waiting (exec i s)
  | .error e => .refused (.undecodable e)

/-- A host write to REG. A write to CTRL with bit 0 = 1 is the START command, with bit 0 = 0 nothing (10 R25). -/
def hostWrite (size : AccessSize) (offset : Nat) (w : Word) (waiting s : State) : Host.Outcome State Fault Refusal :=
  if size ≠ .word ∨ offset % 4 ≠ 0 then .refused (.regAccessNotWord offset)
  else
    match regAt offset with
    | some .ctrl => if w.getLsbD 0 then command (.ctrl w) waiting s else .next s
    | some r => .next (regWrite s r w)
    | none => .next s

/-- A host read of REG: no side effect but the answer (20 R60). -/
def hostRead (size : AccessSize) (offset : Nat) (s : State) : Host.Outcome State Fault Refusal :=
  if size ≠ .word ∨ offset % 4 ≠ 0 then .refused (.regAccessNotWord offset)
  else .next { s with busData := busRead s offset }

/-- The address lies in the pixel buffer (20 R51). -/
def inBuffer (s : State) (addr : Nat) : Bool :=
  decide (s.src.toNat ≤ addr ∧ addr < s.src.toNat + s.bufferLength)

/-- A host write to PIX; to the buffer of a running encode it is refused (20 R64; 93 U2). -/
def hostPixWrite (addr : Nat) (v : Byte) (s : State) : Host.Outcome State Fault Refusal :=
  if 2 ^ s.config.aw ≤ addr then .fault (.pixAddressAbsent addr)
  else if s.phase = .walk && inBuffer s addr then .refused (.pixChangedDuringEncode addr)
  else .next { s with pix := s.pix.write addr v }

/-- One move; `s` is the state without it, `waiting` the state with it still pending. -/
def doMove (m : Move) (waiting s : State) : Host.Outcome State Fault Refusal :=
  match m with
  | .wait => encoderStep s
  | .write size offset w => hostWrite size offset w waiting s
  | .read size offset => hostRead size offset s
  | .pixWrite addr v => hostPixWrite addr v s
  | .reset => .next s.hardwareReset
  | .op w => command w waiting s

/-- What happens in a step once the sink's level is known: the oldest pending move, or the encoder's step. -/
def nextMove (s : State) : Host.Outcome State Fault Refusal :=
  match s.moves with
  | [] => encoderStep s
  | m :: rest => doMove m s { s with moves := rest }

end Sys2Proof.Machine
end

