-- ==== Sys2Proof/Machine/Step.lean ====
section
/-! DEFINITION. One step of the machine, and where it takes an encoded operation from. -/

namespace Sys2Proof.Machine

/-- One step: the sink presents its level, then the oldest pending move of the outside world happens, or, if there
is none, the encoder takes its step (42 R140). -/
def step (s : State) : Host.Outcome State Fault Refusal := nextMove s.sinkTick

/-- The state with the opcode-table word as the next thing that happens: a CTRL write by the host, or an operation
handed to the header framer or the bit-packer; the sink is ready for it. How a program comes to run from
`State.reset` is log 3. -/
def State.withFetchWord (s : State) (nbits w : Nat) : State :=
  { s with
    moves :=
      (match tableOp nbits w with
        | .ctrl word => Move.write .word 0x00 word
        | op => Move.op op) :: s.moves
    sinkLevels := true :: s.sinkLevels }

end Sys2Proof.Machine
end

