-- ==== Sys2Proof/Machine/Encode.lean ====
section
/-! DEFINITION. The whole encode as one function (42 R154). -/

namespace Sys2Proof.Machine

/-- The image descriptor (10 R21). -/
structure Descriptor where
  src : BitVec 64
  width : Word
  height : Word
  channels : Byte
  colorspace : Byte
  deriving DecidableEq, Repr

/-- `n` PIXEL steps. -/
def walkPixels : Nat → State → Host.Outcome State Fault Refusal
  | 0, s => .next s
  | n + 1, s =>
    match pixelStep s with
    | .next t => walkPixels n t
    | o => o

/-- The chunks the selector hands to the bit-packer from a state in WALK on: those of `n` PIXEL steps (42 R141), then
what FINISH flushes (42 R153). They stop short where a pixel cannot be fetched. -/
def chunksFrom : Nat → State → List Instr
  | 0, s => flushed s
  | n + 1, s =>
    match fetchPixel s s.pixIdx.toNat with
    | .ok p => selected s p ++ chunksFrom n (afterPixel s p)
    | .error _ => []

/-- StartStep; PixelStep, WIDTH x HEIGHT times; FinishStep (42 R154). -/
def encodeFrom (s : State) : Host.Outcome State Fault Refusal :=
  match execStart s with
  | .next t =>
    if t.phase = .walk then
      match walkPixels t.pixels t with
      | .next u => finishStep u
      | o => o
    else .next t
  | o => o

/-- A block with the descriptor registers written and the pixels placed, before START. -/
def prepared (c : Config) (d : Descriptor) (pix : Memory) : State :=
  { State.reset with
    config := c
    src := truncAw c d.src
    width := d.width
    height := d.height
    channels := d.channels
    colorspace := d.colorspace
    pix := pix }

/-- `Encode(d, pix)` (42 R154): the error code and the output bytes. -/
def encodeImage (c : Config) (d : Descriptor) (pix : Memory) : Host.Outcome (Byte × List Byte) Fault Refusal :=
  match encodeFrom (prepared c d pix) with
  | .next s => .next (s.err, s.out)
  | .fault f => .fault f
  | .refused r => .refused r

end Sys2Proof.Machine
end

