-- ==== Sys2Proof/Machine/Reader.lean ====
section
/-! DEFINITION. The reference reader of 44_reference_decoder: a specification device, not hardware, by which the
round-trip law (R190) is stated. It refuses (none) what R180 and R192 put outside its domain. -/

namespace Sys2Proof.Machine

/-- The reader's state (44 R181); none is the valid bit 0. The byte position is the list of bytes still to read. -/
structure Reader where
  dprev : Option Pixel
  dcache : Vector (Option Pixel) 64
  outpx : List Pixel
  deriving DecidableEq, Repr

/-- 44 R181. -/
def Reader.initial : Reader :=
  { dprev := none, dcache := Vector.replicate 64 none, outpx := [] }

/-- The slot `i` of the reader's table. -/
def Reader.slot (r : Reader) (i : BitVec 6) : Option Pixel := r.dcache.get ⟨i.toNat, i.isLt⟩

/-- The update after a chunk that produced the pixel `p` (44 R189). -/
def Reader.produce (r : Reader) (p : Pixel) : Reader :=
  { dprev := some p
    dcache := r.dcache.set (hash p).toNat (some p) (hash p).isLt
    outpx := r.outpx ++ [p] }

/-- The pixel a DIFF chunk stands for (43 R164; 44 R187). -/
def diffPixel (q : Pixel) (fr fg fb : BitVec 2) : Pixel :=
  { r := add8 q.r (sub8 (fr.setWidth 8) 2#8)
    g := add8 q.g (sub8 (fg.setWidth 8) 2#8)
    b := add8 q.b (sub8 (fb.setWidth 8) 2#8)
    a := q.a }

/-- The pixel a LUMA chunk stands for (43 R165; 44 R188). -/
def lumaPixel (q : Pixel) (fg : BitVec 6) (frg fbg : BitVec 4) : Pixel :=
  let g := sub8 (fg.setWidth 8) 32#8
  { r := add8 q.r (sub8 (add8 g (frg.setWidth 8)) 8#8)
    g := add8 q.g g
    b := add8 q.b (sub8 (add8 g (fbg.setWidth 8)) 8#8)
    a := q.a }

/-- One chunk read (44 R184 to R191), of an image of `channels` channels and `total` pixels. -/
def readChunk (channels : Byte) (total : Nat) (i : Instr) (r : Reader) : Option Reader :=
  match i with
  | .rgb pr pg pb => if channels = 3#8 then some (r.produce { r := pr, g := pg, b := pb, a := 0#8 }) else none
  | .rgba pr pg pb pa => if channels = 4#8 then some (r.produce { r := pr, g := pg, b := pb, a := pa }) else none
  | .index idx => (r.slot idx).map r.produce
  | .diff fr fg fb => r.dprev.map fun q => r.produce (diffPixel q fr fg fb)
  | .luma fg frg fbg => r.dprev.map fun q => r.produce (lumaPixel q fg frg fbg)
  | .run n =>
    match r.dprev with
    | some q =>
      if r.outpx.length + (n.toNat + 1) ≤ total then
        some { r with outpx := r.outpx ++ List.replicate (n.toNat + 1) q }
      else none
    | none => none
  | .hdr _ _ _ _ => none
  | .start => none

/-- The chunk loop (44 R183). Every chunk takes at least one byte, so as many rounds as there are bytes suffice. -/
def readLoop (channels : Byte) (total : Nat) : Nat → List Byte → Reader → Option Reader
  | 0, bs, r => if total ≤ r.outpx.length ∧ bs = [] then some r else none
  | n + 1, bs, r =>
    if total ≤ r.outpx.length then (if bs = [] then some r else none)
    else
      match decodeChunk bs with
      | .ok (i, rest) =>
        match readChunk channels total i r with
        | some r' => readLoop channels total n rest r'
        | none => none
      | .error _ => none

/-- The first C fields of a pixel (44 R183). -/
def pixelBytes (channels : Byte) (p : Pixel) : List Byte :=
  if channels = 4#8 then [p.r, p.g, p.b, p.a] else [p.r, p.g, p.b]

/-- `Decode` (44 R182, R183): the pixel buffer of a stream. -/
def decodeStream (magic : BitVec 32) (stream : List Byte) : Option (List Byte) :=
  match decodeHeader magic stream with
  | .ok (.hdr w h c _) =>
    let body := stream.drop 14
    (readLoop c (w.toNat * h.toNat) body.length body Reader.initial).map fun r => r.outpx.flatMap (pixelBytes c)
  | _ => none

end Sys2Proof.Machine
end

