-- ==== Sys2Proof/Safety.lean ====
section
/-! DEFINITION. The terms claims use: launch premises (70_reset_and_hazards R246), what a step may leave changed, the
invariants of 10_state R39, and the lockstep of block and reader (44 R189). -/

namespace Sys2Proof.Machine

/-! Premises. -/

/-- PixReadable (20 R65): the whole pixel buffer lies in the address space and is readable. -/
def State.pixReadable (s : State) : Prop :=
  ∀ k < s.bufferLength, s.src.toNat + k < 2 ^ s.config.aw ∧ (s.pix.read (s.src.toNat + k)).isSome = true

/-- PixStable, SinkFair and NoResetDuringRun (70 R246): the outside world does nothing but accept bytes. -/
def State.undisturbed (s : State) : Prop := s.moves = [] ∧ s.sinkLevels = [] ∧ s.sinkReady = true

/-- The host's START command is the one thing pending, and the sink accepts bytes from now on. -/
def State.startPending (s : State) : Prop :=
  s.moves = [.write .word 0x00 1#32] ∧ s.sinkLevels = [] ∧ s.sinkReady = true

/-- The encoder is about to take the PIXEL step of the pixel `p` (42 R140, R141). -/
def State.atPixel (s : State) (p : Pixel) : Prop :=
  s.undisturbed ∧ s.phase = .walk ∧ s.pixIdx.toNat < s.pixels ∧ fetchPixel s s.pixIdx.toNat = .ok p

/-- `p` does not extend a run, and no run is pending: the pixel goes straight to classification (42 R141). -/
def State.atNewColour (s : State) (p : Pixel) : Prop :=
  s.atPixel p ∧ s.prevValid = true ∧ p ≠ s.prev ∧ s.run = 0#6

/-- A move of the model's own, which no hardware has (log 2). -/
def Move.isBench : Move → Bool
  | .op _ => true
  | .wait | .write _ _ _ | .read _ _ | .pixWrite _ _ | .reset => false

/-- A move that hands an operation to the block: an aligned CTRL write with bit 0 = 1 (10 R25), or a bench move. -/
def Move.isCommand : Move → Bool
  | .write size offset w => size == .word && offset == 0 && w.getLsbD 0
  | .op _ => true
  | .wait | .read _ _ | .pixWrite _ _ | .reset => false

/-- A byte is emitted next, if the sink is ready: by the encoder's step in WALK, by a pending START that passes
validation outside WALK (43 R171), or by a bench move. -/
def State.emitsNext (s : State) : Prop :=
  (s.moves = [] ∧ s.phase = .walk ∧ encoderEmits s = true) ∨
  (∃ w rest, s.moves = .write .word 0x00 w :: rest ∧ w.getLsbD 0 = true ∧ s.phase ≠ .walk ∧ s.validation = 0#8) ∨
  ∃ w i rest, s.moves = .op w :: rest ∧ decodeOp s.config.magic w = .ok i ∧ emitsNow i s = true

/-- The move asks for a START step: an aligned CTRL write with bit 0 = 1 (10 R25), or a bench move of a word that
decodes to START (log 2). -/
def Move.asksForStart (magic : BitVec 32) (m : Move) : Prop :=
  (∃ w, m = .write .word 0x00 w ∧ w.getLsbD 0 = true) ∨ ∃ w, m = .op w ∧ decodeOp magic w = .ok .start

/-! Frames. -/

/-- The step appended exactly these bytes (20 R56). -/
def Emitted (s t : State) (bs : List Byte) : Prop :=
  t.out = s.out ++ bs ∧ t.outLen = s.outLen + BitVec.ofNat 67 bs.length

/-- Nothing but OUT and OUT_LEN is changed, and every byte of PIX reads as before. -/
def OnlyOutputChanged (s t : State) : Prop :=
  t = { s with out := t.out, outLen := t.outLen } ∧ ∀ a, t.pix.read a = s.pix.read a

/-- Nothing but what a PIXEL step writes (42 R141) is changed, and every byte of PIX reads as before. -/
def OnlyPixelStateChanged (s t : State) : Prop :=
  t = { s with
    out := t.out, outLen := t.outLen, run := t.run, cache := t.cache, prev := t.prev, prevValid := t.prevValid
    pixIdx := t.pixIdx } ∧ ∀ a, t.pix.read a = s.pix.read a

/-- Nothing but what a START step writes (40 R101, R104, R106) and the count of free values is changed, and every
byte of PIX reads as before. -/
def OnlyEncodeStateChanged (s t : State) : Prop :=
  t = { s with
    out := t.out, outLen := t.outLen, err := t.err, pixIdx := t.pixIdx, run := t.run, prevValid := t.prevValid
    prev := t.prev, cache := t.cache, phase := t.phase, draws := t.draws } ∧ ∀ a, t.pix.read a = s.pix.read a

/-- The working state as INIT leaves it (40 R101). -/
def WorkingStateCleared (t : State) : Prop :=
  t.pixIdx = 0#64 ∧ t.run = 0#6 ∧ t.prevValid = false ∧ ∀ i, (slotAt t.cache i).valid = false

/-- The bytes of a literal of the image (42 R150; 43 R161, R162). -/
def literalBytes (channels : Byte) (p : Pixel) : List Byte :=
  if channels = 4#8 then [0xFF#8, p.r, p.g, p.b, p.a] else [0xFE#8, p.r, p.g, p.b]

/-- The four bytes of a 32-bit number, most significant first (20 R57), in plain arithmetic. -/
def bigEndian (v : BitVec 32) : List Byte :=
  [BitVec.ofNat 8 (v.toNat / 2 ^ 24), BitVec.ofNat 8 (v.toNat / 2 ^ 16), BitVec.ofNat 8 (v.toNat / 2 ^ 8),
   BitVec.ofNat 8 v.toNat]

/-- The 14 bytes of a header (30 R71), in plain arithmetic. -/
def headerBytes (magic width height : BitVec 32) (channels colorspace : Byte) : List Byte :=
  bigEndian magic ++ bigEndian width ++ bigEndian height ++ [channels, colorspace]

/-- A PIXEL step that took a new colour: it appended `bs`, and `p` is stored and is the previous pixel
(42 R151). -/
def TookPixel (s t : State) (p : Pixel) (bs : List Byte) : Prop :=
  Emitted s t bs ∧ OnlyPixelStateChanged s t ∧ t.run = 0#6 ∧ t.prev = p ∧ t.prevValid = true ∧
    t.pixIdx = s.pixIdx + 1#64 ∧ slotAt t.cache (hash p) = { valid := true, px := p } ∧
    ∀ i, i ≠ hash p → slotAt t.cache i = slotAt s.cache i

/-! Invariants. -/

/-- 10 R39, items 1 to 6, with the size bound of 30 R89 that keeps OUT_LEN from wrapping: what holds at every step
boundary with PHASE = WALK. -/
structure WalkInvariant (s : State) : Prop where
  validated : s.validation = 0#8
  indexInRange : s.pixIdx.toNat ≤ s.pixels
  prevFromFirst : s.prevValid = false ↔ s.pixIdx = 0#64
  prevInItsSlot : s.prevValid = true → slotAt s.cache (hash s.prev) = { valid := true, px := s.prev }
  runCapped : s.run.toNat ≤ 61
  runHasPrev : s.run ≠ 0#6 → s.prevValid = true
  slotsHoldTheirHash : ∀ i, (slotAt s.cache i).valid = true → hash (slotAt s.cache i).px = i
  noAlphaInPrev : s.channels = 3#8 → s.prevValid = true → s.prev.a = 0#8
  noAlphaInSlots : s.channels = 3#8 → ∀ i, (slotAt s.cache i).valid = true → (slotAt s.cache i).px.a = 0#8
  noError : s.err = 0#8
  headerFirst : s.out.take 14 = headerBytes s.config.magic s.width s.height s.channels s.colorspace
  headerComplete : 14 ≤ s.out.length
  literalOut : s.prevValid = true → 18 ≤ s.out.length
  sizeBound : s.out.length + (if s.run = 0#6 then 0 else 1) ≤ 14 + (s.channels.toNat + 1) * s.pixIdx.toNat

/-- What holds at every step boundary of a run without bench moves. -/
structure Invariant (s : State) : Prop where
  noBenchMove : s.moves.all (fun m => !m.isBench) = true
  lengthCounted : s.outLen.toNat = s.out.length
  srcInAddressSpace : s.src.toNat < 2 ^ s.config.aw
  memoryCanonical : s.pix.wf
  memoryInAddressSpace : ∀ cell ∈ s.pix, cell.1 < 2 ^ s.config.aw
  errorIsACode : s.err.toNat ≤ 4
  errorHasNoOutput : s.err ≠ 0#8 → s.phase = .done ∧ s.out = []
  idleHasNoOutput : s.phase = .idle → s.out = []
  doneHasOutput : s.phase = .done → s.err = 0#8 → 18 ≤ s.out.length
  walking : s.phase = .walk → WalkInvariant s

/-- The chunks of a stream read to its end, as far as it goes (44 R183 without the pixel count). -/
def replay (channels : Byte) (total : Nat) : Nat → List Byte → Reader → Option Reader
  | _, [], r => some r
  | 0, _ :: _, _ => none
  | n + 1, b :: bs, r =>
    match decodeChunk (b :: bs) with
    | .ok (i, rest) =>
      match readChunk channels total i r with
      | some r' => replay channels total n rest r'
      | none => none
    | .error _ => none

/-- 10 R39 item 7 and the lockstep of 44 R189: a reader of the chunks in OUT holds the block's previous pixel and its
cache, and has produced, but for the pending run, exactly the pixels before PIX_IDX. -/
def Lockstep (s : State) : Prop :=
  ∃ r, replay s.channels s.pixels s.out.length (s.out.drop 14) Reader.initial = some r ∧
    r.dprev = (if s.prevValid then some s.prev else none) ∧
    (∀ i, r.slot i = lookup s.cache i) ∧
    (r.outpx ++ List.replicate s.run.toNat s.prev).length = s.pixIdx.toNat ∧
    ∀ j < s.pixIdx.toNat, ∃ p, fetchPixel s j = .ok p ∧ (r.outpx ++ List.replicate s.run.toNat s.prev)[j]? = some p

/-- What the host and the sink can see of the block (10 R36; 20 R55): the result of a run (70 R245) and the status. -/
def State.visible (s : State) : Phase × Byte × BitVec 67 × List Byte := (s.phase, s.err, s.outLen, s.out)

end Sys2Proof.Machine
end

