-- ==== Sys2Proof/Certificates/Slice0/Obligations.lean ====
section
/-! DEFINITION. What is claimed of the model. Each statement's docstring names the rule of spec/ it formalises or the
sections it rests on. -/

open Sys2Proof Sys2Proof.Machine

/-! Encodings (30_encoding). -/

/-- 30_encoding sections 2 and 3: reading back what the encoder writes gives the operation, every operand at every
value its encoding admits. -/
def Obligations.DecodeUndoesEncode : Prop :=
  ∀ (magic : BitVec 32) (i : Instr), i.wf = true → decodeOp magic (encode magic i) = .ok i

/-- Words written out from 30_encoding and spec/opcode_table.json, first byte in the low bits. That a table word of 112
bits is a header and one of 32 bits with bit 0 set a CTRL write is the model's choice (log 20); that the header's MAGIC
is the default one is PRESUMED (log 12). -/
def Obligations.WrittenOutWordsDecode : Prop :=
  decodeTableWord 8 0b00010110 = some (.index 22#6) ∧
  decodeTableWord 8 0b01011010 = some (.diff 1#2 2#2 2#2) ∧
  decodeTableWord 16 0b1001011010101000 = some (.luma 40#6 9#4 6#4) ∧
  decodeTableWord 8 0b11000100 = some (.run 4#6) ∧
  decodeTableWord 32 0x465A5A_FE = some (.rgb 0x5A#8 0x5A#8 0x46#8) ∧
  decodeTableWord 40 0x281E140A_FF = some (.rgba 10#8 20#8 30#8 40#8) ∧
  decodeTableWord 112 0x0104_0D0C0B0A_04030201_66696F71 = some (.hdr 0x01020304#32 0x0A0B0C0D#32 4#8 1#8) ∧
  decodeTableWord 32 0xFFFFFFFF = some .start

/-- 30_encoding sections 4 and 6 (first-byte map, chunk length): every first byte is one of the six chunks, and the
chunk is as long as ChunkLen of that byte says, whatever follows. -/
def Obligations.EveryFirstByteNamesOneChunk : Prop :=
  ∀ (b0 b1 b2 b3 b4 : Byte) (tail : List Byte), ∃ i,
    decodeChunk (b0 :: b1 :: b2 :: b3 :: b4 :: tail) =
      .ok (i, (b0 :: b1 :: b2 :: b3 :: b4 :: tail).drop i.byteLength) ∧
    i.wf = true ∧ i.isChunk = true ∧ i.byteLength = chunkLen b0 ∧
    i.mnemonic =
      (if b0.toNat ≤ 0x3F then "INDEX" else if b0.toNat ≤ 0x7F then "DIFF" else if b0.toNat ≤ 0xBF then "LUMA"
        else if b0.toNat ≤ 0xFD then "RUN" else if b0.toNat = 0xFE then "RGB" else "RGBA")

/-- 30_encoding sections 2 to 4: what is read was written in its one encoding, and the bytes after it are left. That a
header read has no zero width or height is the model's inference from the HDR row of spec/opcode_table.json and
44_reference_decoder (DEDUCED, log 24). -/
def Obligations.ReadItemReencodesToItsBytes : Prop :=
  (∀ (magic : BitVec 32) (bs : List Byte) (i : Instr) (rest : List Byte), decodeChunk bs = .ok (i, rest) →
    i.wf = true ∧ i.isChunk = true ∧ (encode magic i).bytes ++ rest = bs) ∧
  (∀ (magic : BitVec 32) (bs : List Byte) (i : Instr), decodeHeader magic bs = .ok i →
    i.wf = true ∧ (encode magic i).bytes = bs.take 14)

/-! Arithmetic (41, 42, 43). -/

/-- R120: the slot of a pixel, for 4-channel pixels and for 3-channel pixels (A = 0). -/
def Obligations.HashFormula : Prop :=
  ∀ p : Pixel,
    (hash p).toNat = (p.r.toNat * 3 + p.g.toNat * 5 + p.b.toNat * 7 + p.a.toNat * 11) % 64 ∧
    (p.a = 0#8 → (hash p).toNat = (p.r.toNat * 3 + p.g.toNat * 5 + p.b.toNat * 7) % 64)

/-- 41_hash_cache section 1 (width-insensitivity, an inference the spec marks as its own): the hash can be formed in
wrapping byte arithmetic, and depends on the low six bits of each channel only. -/
def Obligations.HashNeedsOnlyLowSixBits : Prop :=
  (∀ p : Pixel, hash p = (3#8 * p.r + 5#8 * p.g + 7#8 * p.b + 11#8 * p.a).setWidth 6) ∧
  (∀ p q : Pixel, p.r.setWidth 6 = q.r.setWidth 6 → p.g.setWidth 6 = q.g.setWidth 6 →
    p.b.setWidth 6 = q.b.setWidth 6 → p.a.setWidth 6 = q.a.setWidth 6 → hash p = hash q)

/-- 42_chunk_selector section 2 and 30_encoding section 5: DIFF_FITS is true for exactly four delta bytes in each
channel, deltas taken as current - previous and wrapped; the unsigned test after rebiasing is the same. -/
def Obligations.DiffFitsExactlyFourDeltaBytes : Prop :=
  ∀ p q : Pixel,
    (diffFits p q = true ↔ ∀ d ∈ [p.r - q.r, p.g - q.g, p.b - q.b], d ∈ [0xFE#8, 0xFF#8, 0x00#8, 0x01#8]) ∧
    (diffFits p q = true ↔ (p.r - q.r + 2#8).toNat < 4 ∧ (p.g - q.g + 2#8).toNat < 4 ∧ (p.b - q.b + 2#8).toNat < 4)

/-- 42_chunk_selector section 2 and 30_encoding section 5: LUMA_FITS by unsigned tests after rebiasing, and by the
integer ranges of dG and of the cross deltas without wrapping (95_test_vectors section 3, the note on cross
deltas). -/
def Obligations.LumaFitsOnWrappedDeltas : Prop :=
  ∀ p q : Pixel,
    (lumaFits p q = true ↔
      (p.g - q.g + 32#8).toNat < 64 ∧ ((p.r - q.r) - (p.g - q.g) + 8#8).toNat < 16 ∧
        ((p.b - q.b) - (p.g - q.g) + 8#8).toNat < 16) ∧
    (lumaFits p q = true ↔
      (-32 ≤ (p.g - q.g).toInt ∧ (p.g - q.g).toInt ≤ 31) ∧
        (-8 ≤ (p.r - q.r).toInt - (p.g - q.g).toInt ∧ (p.r - q.r).toInt - (p.g - q.g).toInt ≤ 7) ∧
        (-8 ≤ (p.b - q.b).toInt - (p.g - q.g).toInt ∧ (p.b - q.b).toInt - (p.g - q.g).toInt ≤ 7))

/-! The chunk operations (43). -/

/-- R160, for all six: whole bytes appended through Emit, nothing else written, PIX not read, no error. -/
def Obligations.ChunkOperationsOnlyAppend : Prop :=
  ∀ (magic : BitVec 32) (i : Instr) (s : State), i.isChunk = true → ∃ t,
    exec i s = .next t ∧ Emitted s t (encode magic i).bytes ∧ OnlyOutputChanged s t ∧
    (encode magic i).bytes.length = i.byteLength ∧ 1 ≤ i.byteLength ∧
    ∀ m : Memory, exec i { s with pix := m } = .next { t with pix := m }

/-- R163 and R76: the byte is the slot number; it stands for the pixel in that slot. -/
def Obligations.IndexAppendsSlotNumber : Prop :=
  ∀ (idx : BitVec 6) (s : State), ∃ t,
    exec (.index idx) s = .next t ∧ Emitted s t [BitVec.ofNat 8 idx.toNat] ∧ OnlyOutputChanged s t ∧
    ∀ (channels : Byte) (total : Nat) (r : Reader) (p : Pixel), r.slot idx = some p →
      readChunk channels total (.index idx) r = some (r.produce p)

/-- R164 and R77: the byte value, for every field value and for the deltas of two pixels; the chunk stands for the
previous pixel plus the deltas. -/
def Obligations.DiffAppendsBiasedDeltas : Prop :=
  (∀ (fr fg fb : BitVec 2) (s : State), ∃ t,
    exec (.diff fr fg fb) s = .next t ∧
    Emitted s t [BitVec.ofNat 8 (0x40 + 16 * fr.toNat + 4 * fg.toNat + fb.toNat)] ∧ OnlyOutputChanged s t) ∧
  (∀ (p q : Pixel) (s : State), p.a = q.a → diffFits p q = true → ∃ t,
    exec (opDiff p q) s = .next t ∧
    Emitted s t [BitVec.ofNat 8
      (0x40 + 16 * (p.r - q.r + 2#8).toNat + 4 * (p.g - q.g + 2#8).toNat + (p.b - q.b + 2#8).toNat)] ∧
    OnlyOutputChanged s t ∧
    ∀ (channels : Byte) (total : Nat) (r : Reader), r.dprev = some q →
      readChunk channels total (opDiff p q) r = some (r.produce p))

/-- R165 and R78: the two byte values, for every field value and for the deltas of two pixels; the chunk stands for
the previous pixel plus the deltas. -/
def Obligations.LumaAppendsBiasedDeltas : Prop :=
  (∀ (fg : BitVec 6) (frg fbg : BitVec 4) (s : State), ∃ t,
    exec (.luma fg frg fbg) s = .next t ∧
    Emitted s t [BitVec.ofNat 8 (0x80 + fg.toNat), BitVec.ofNat 8 (16 * frg.toNat + fbg.toNat)] ∧
    OnlyOutputChanged s t) ∧
  (∀ (p q : Pixel) (s : State), p.a = q.a → lumaFits p q = true → ∃ t,
    exec (opLuma p q) s = .next t ∧
    Emitted s t
      [BitVec.ofNat 8 (0x80 + (p.g - q.g + 32#8).toNat),
       BitVec.ofNat 8 (16 * ((p.r - q.r) - (p.g - q.g) + 8#8).toNat + ((p.b - q.b) - (p.g - q.g) + 8#8).toNat)] ∧
    OnlyOutputChanged s t ∧
    ∀ (channels : Byte) (total : Nat) (r : Reader), r.dprev = some q →
      readChunk channels total (opLuma p q) r = some (r.produce p))

/-- R166 and R79: run lengths 1 to 62 give the bytes 0xC0 to 0xFD; the chunk stands for that many copies of the
previous pixel. -/
def Obligations.RunAppendsLengthMinusOne : Prop :=
  (∀ (n : BitVec 6) (s : State), n.toNat ≤ 61 → ∃ t,
    exec (.run n) s = .next t ∧ Emitted s t [BitVec.ofNat 8 (0xC0 + n.toNat)] ∧ OnlyOutputChanged s t) ∧
  (∀ (n : BitVec 6) (s : State), 1 ≤ n.toNat → n.toNat ≤ 62 → ∃ t,
    exec (opRun n) s = .next t ∧ Emitted s t [BitVec.ofNat 8 (0xBF + n.toNat)] ∧ OnlyOutputChanged s t ∧
    ∀ (channels : Byte) (total : Nat) (r : Reader) (q : Pixel), r.dprev = some q →
      r.outpx.length + n.toNat ≤ total →
      readChunk channels total (opRun n) r = some { r with outpx := r.outpx ++ List.replicate n.toNat q })

/-- R161 and R80: 0xFE and the three channels; alpha is not emitted. -/
def Obligations.RgbAppendsMarkerAndChannels : Prop :=
  ∀ (p : Pixel) (s : State), ∃ t,
    exec (.rgb p.r p.g p.b) s = .next t ∧ Emitted s t [0xFE#8, p.r, p.g, p.b] ∧ OnlyOutputChanged s t ∧
    opRgb p = .rgb p.r p.g p.b ∧
    (p.a = 0#8 → ∀ (total : Nat) (r : Reader), readChunk 3#8 total (opRgb p) r = some (r.produce p))

/-- R162 and R81: 0xFF and the four channels. -/
def Obligations.RgbaAppendsMarkerAndChannels : Prop :=
  ∀ (p : Pixel) (s : State), ∃ t,
    exec (.rgba p.r p.g p.b p.a) s = .next t ∧ Emitted s t [0xFF#8, p.r, p.g, p.b, p.a] ∧ OnlyOutputChanged s t ∧
    opRgba p = .rgba p.r p.g p.b p.a ∧
    ∀ (total : Nat) (r : Reader), readChunk 4#8 total (opRgba p) r = some (r.produce p)

/-! The header and START (40). -/

/-- R105, R71 and R57: fourteen bytes, width and height big-endian. -/
def Obligations.HeaderAppendsFourteenBytes : Prop :=
  ∀ (w h : Word) (c cs : Byte) (s : State), ∃ t,
    exec (.hdr w h c cs) s = .next t ∧
    Emitted s t (headerBytes s.config.magic w h c cs) ∧ (headerBytes s.config.magic w h c cs).length = 14 ∧
    OnlyOutputChanged s t

/-- R103, R201 and R202: which descriptor gives which code; the lowest code that applies is the one reported. -/
def Obligations.ValidationReportsFirstViolation : Prop :=
  ∀ (src : BitVec 64) (w h : Word) (c cs : Byte),
    (validate src w h c cs = 1#8 ↔ src = 0#64) ∧
    (validate src w h c cs = 2#8 ↔ src ≠ 0#64 ∧ (w = 0#32 ∨ h = 0#32)) ∧
    (validate src w h c cs = 3#8 ↔ src ≠ 0#64 ∧ w ≠ 0#32 ∧ h ≠ 0#32 ∧ c ≠ 3#8 ∧ c ≠ 4#8) ∧
    (validate src w h c cs = 4#8 ↔
      src ≠ 0#64 ∧ w ≠ 0#32 ∧ h ≠ 0#32 ∧ (c = 3#8 ∨ c = 4#8) ∧ cs ≠ 0#8 ∧ cs ≠ 1#8) ∧
    (validate src w h c cs = 0#8 ↔
      src ≠ 0#64 ∧ w ≠ 0#32 ∧ h ≠ 0#32 ∧ (c = 3#8 ∨ c = 4#8) ∧ (cs = 0#8 ∨ cs = 1#8)) ∧
    (validate src w h c cs).toNat ≤ 4

/-- R101: INIT clears exactly the registers it names; PREV and the pixels of the now empty slots become
unspecified. -/
def Obligations.InitClearsWorkingState : Prop :=
  ∀ s : State, s.init.out = [] ∧ s.init.outLen = 0#67 ∧ s.init.err = 0#8 ∧ WorkingStateCleared s.init ∧
    s.init.phase = s.phase ∧ OnlyEncodeStateChanged s s.init

/-- R104 and R204: a START that fails validation. PIX plays no part in it. -/
def Obligations.FailingStartRaisesItsCode : Prop :=
  ∀ s : State, s.phase ≠ .walk → s.validation ≠ 0#8 → ∃ t,
    exec .start s = .next t ∧ t.err = s.validation ∧ t.phase = .done ∧ t.out = [] ∧ t.outLen = 0#67 ∧
    WorkingStateCleared t ∧ OnlyEncodeStateChanged s t ∧
    ∀ m : Memory, exec .start { s with pix := m } = .next { t with pix := m }

/-- 40_command_validate_header sections 4 and 5: a START that passes validation; when it does is said in full. PIX
plays no part in it. -/
def Obligations.ValidStartEmitsHeaderAndWalks : Prop :=
  ∀ s : State, s.phase ≠ .walk → s.src ≠ 0#64 → s.width ≠ 0#32 → s.height ≠ 0#32 →
    (s.channels = 3#8 ∨ s.channels = 4#8) → (s.colorspace = 0#8 ∨ s.colorspace = 1#8) → ∃ t,
    exec .start s = .next t ∧ t.err = 0#8 ∧ t.phase = .walk ∧ t.outLen = 14#67 ∧
    t.out = headerBytes s.config.magic s.width s.height s.channels s.colorspace ∧
    WorkingStateCleared t ∧ OnlyEncodeStateChanged s t ∧
    ∀ m : Memory, exec .start { s with pix := m } = .next { t with pix := m }

/-- R25 and R100: a write to CTRL is a START if bit 0 is 1 and PHASE is not WALK, and nothing otherwise; CTRL reads
0. -/
def Obligations.ControlWriteIsStartOutsideWalk : Prop :=
  (∀ (s : State) (w : Word) (rest : List Move), s.moves = .write .word 0x00 w :: rest →
    (w.getLsbD 0 = false → step s = .next { s.sinkTick with moves := rest }) ∧
    (w.getLsbD 0 = true → s.phase = .walk → step s = .next { s.sinkTick with moves := rest }) ∧
    (w.getLsbD 0 = true → s.phase ≠ .walk → (s.sinkTick.sinkReady = true ∨ s.validation ≠ 0#8) →
      step s = exec .start { s.sinkTick with moves := rest })) ∧
  (∀ (s : State) (rest : List Move), s.moves = .read .word 0x00 :: rest →
    step s = .next { s.sinkTick with moves := rest, busData := 0#32 })

/-! The cache (41). -/

/-- R124: STORE overwrites exactly the slot of the pixel's hash, whatever it held. -/
def Obligations.StoreOverwritesOneSlot : Prop :=
  ∀ (c : Vector Slot 64) (p : Pixel),
    slotAt (storePixel c p) (hash p) = { valid := true, px := p } ∧
    (∀ i, i ≠ hash p → slotAt (storePixel c p) i = slotAt c i) ∧
    (slotAt c (hash p) = { valid := true, px := p } → storePixel c p = c) ∧
    storePixel (storePixel c p) p = storePixel c p

/-- R123: HIT is a valid slot holding the very pixel; an empty slot and a colliding pixel never hit. -/
def Obligations.HitNeedsTheVeryPixel : Prop :=
  ∀ (c : Vector Slot 64),
    (∀ i, (slotAt c i).valid = false → lookup c i = none) ∧
    (∀ i, (slotAt c i).valid = true → lookup c i = some (slotAt c i).px) ∧
    (∀ p, hit c p = true ↔
      (slotAt c (hash p)).valid = true ∧ (slotAt c (hash p)).px.r = p.r ∧ (slotAt c (hash p)).px.g = p.g ∧
        (slotAt c (hash p)).px.b = p.b ∧ (slotAt c (hash p)).px.a = p.a) ∧
    (∀ p q, p ≠ q → hash p = hash q → hit (storePixel c p) q = false ∧ hit (storePixel c p) p = true)

/-! The PIXEL and FINISH steps (42). -/

/-- R53, and the layout of a pixel in 20_memory section 2: byte k of the buffer is at SRC + k without wrap-around,
and a pixel is read from its own bytes; A = 0 in a 3-channel image. -/
def Obligations.PixelIsReadFromItsOwnBytes : Prop :=
  (∀ (s : State) (k : Nat) (v : Byte), pixByte s k = .ok v ↔
    s.src.toNat + k < 2 ^ s.config.aw ∧ s.pix.read (s.src.toNat + k) = some v) ∧
  (∀ (s : State) (i : Nat) (p : Pixel), s.channels = 3#8 →
    (fetchPixel s i = .ok p ↔ pixByte s (3 * i) = .ok p.r ∧ pixByte s (3 * i + 1) = .ok p.g ∧
      pixByte s (3 * i + 2) = .ok p.b ∧ p.a = 0#8)) ∧
  (∀ (s : State) (i : Nat) (p : Pixel), s.channels = 4#8 →
    (fetchPixel s i = .ok p ↔ pixByte s (4 * i) = .ok p.r ∧ pixByte s (4 * i + 1) = .ok p.g ∧
      pixByte s (4 * i + 2) = .ok p.b ∧ pixByte s (4 * i + 3) = .ok p.a))

/-- 20_memory section 2 (launch premise on the buffer extent): a PIXEL step whose pixel has a byte past the address
space or not readable is refused at the first such byte: every byte of the pixel before it can be read. That it is refused when the byte is read, and not at START,
is the model's choice (log 10, 11). -/
def Obligations.UnreadablePixelIsRefused : Prop :=
  ∀ s : State, s.undisturbed → s.phase = .walk → s.pixIdx.toNat < s.pixels →
    (s.channels = 3#8 ∨ s.channels = 4#8) → (¬ ∃ p, fetchPixel s s.pixIdx.toNat = .ok p) →
    ∃ k < s.channels.toNat,
      (∀ j < k, ∃ v, pixByte s (s.channels.toNat * s.pixIdx.toNat + j) = .ok v) ∧
      ∃ a, a = s.src.toNat + (s.channels.toNat * s.pixIdx.toNat + k) ∧
      ((2 ^ s.config.aw ≤ a ∧ step s = .refused (.pixPastAddressSpace a)) ∨
        (a < 2 ^ s.config.aw ∧ s.pix.read a = none ∧ step s = .refused (.pixUnreadable a)))

/-- R142: the first pixel is a literal. -/
def Obligations.FirstPixelIsLiteral : Prop :=
  ∀ (s : State) (p : Pixel), s.atPixel p → WalkInvariant s → s.pixIdx = 0#64 → ∃ t,
    step s = .next t ∧ TookPixel s t p (literalBytes s.channels p)

/-- R143 and the cap of 42_chunk_selector section 2: a pixel equal to PREV only extends the run; the step that makes
RUN 62 emits 0xFD and clears RUN. -/
def Obligations.EqualPixelExtendsRun : Prop :=
  ∀ (s : State) (p : Pixel), s.atPixel p → s.prevValid = true → p = s.prev → ∃ t,
    step s = .next t ∧ OnlyPixelStateChanged s t ∧ t.cache = s.cache ∧ t.prev = s.prev ∧ t.prevValid = true ∧
    t.pixIdx = s.pixIdx + 1#64 ∧
    (s.run = 61#6 → Emitted s t [0xFD#8] ∧ t.run = 0#6) ∧
    (s.run ≠ 61#6 → Emitted s t [] ∧ t.run = s.run + 1#6)

/-- 42_chunk_selector section 2 (run cap, an inference the spec marks as its own): a stretch of k pixels equal to the
pixel before it gives k div 62 chunks RUN 62 and leaves k mod 62 pending. -/
def Obligations.StretchOfEqualPixels : Prop :=
  ∀ (k : Nat) (s : State), s.prevValid = true → s.run = 0#6 → s.pixIdx.toNat + k < 2 ^ 64 →
    (∀ j < k, fetchPixel s (s.pixIdx.toNat + j) = .ok s.prev) → ∃ t,
    walkPixels k s = .next t ∧ Emitted s t (List.replicate (k / 62) 0xFD#8) ∧ t.run.toNat = k % 62 ∧
    t.pixIdx.toNat = s.pixIdx.toNat + k ∧ t.cache = s.cache ∧ t.prev = s.prev ∧ t.prevValid = true

/-- R145: the pending run goes out first, then the pixel is classified as if no run had been pending. -/
def Obligations.DifferingPixelFlushesRun : Prop :=
  ∀ (s : State) (p : Pixel), s.atPixel p → s.prevValid = true → p ≠ s.prev → 1 ≤ s.run.toNat → s.run.toNat ≤ 62 →
    ∃ t, step s = .next t ∧
      step { s with out := s.out ++ [BitVec.ofNat 8 (0xBF + s.run.toNat)], outLen := s.outLen + 1#67, run := 0#6 } =
        .next t

/-- R146: a pixel in its slot is an INDEX, whatever its alpha, and the cache stays as it is. -/
def Obligations.CachedPixelIsIndex : Prop :=
  ∀ (s : State) (p : Pixel), s.atNewColour p → lookup s.cache (hash p) = some p → ∃ t,
    step s = .next t ∧ TookPixel s t p [BitVec.ofNat 8 (hash p).toNat] ∧ t.cache = s.cache

/-- R148: a pixel that does not hit, of equal alpha and with deltas (current - previous, wrapped) in -2..1 is a
DIFF. -/
def Obligations.SmallDeltaIsDiff : Prop :=
  ∀ (s : State) (p : Pixel), s.atNewColour p → lookup s.cache (hash p) ≠ some p → p.a = s.prev.a →
    -2 ≤ (p.r - s.prev.r).toInt → (p.r - s.prev.r).toInt ≤ 1 →
    -2 ≤ (p.g - s.prev.g).toInt → (p.g - s.prev.g).toInt ≤ 1 →
    -2 ≤ (p.b - s.prev.b).toInt → (p.b - s.prev.b).toInt ≤ 1 → ∃ t,
    step s = .next t ∧
    TookPixel s t p [BitVec.ofInt 8 (0x40 + 16 * ((p.r - s.prev.r).toInt + 2) + 4 * ((p.g - s.prev.g).toInt + 2) +
      ((p.b - s.prev.b).toInt + 2))]

/-- R149: a pixel that does not hit and is no DIFF, of equal alpha, with dG in -32..31 and cross deltas in -8..7, is
a LUMA. -/
def Obligations.LumaDeltaIsLuma : Prop :=
  ∀ (s : State) (p : Pixel), s.atNewColour p → lookup s.cache (hash p) ≠ some p → p.a = s.prev.a →
    diffFits p s.prev = false →
    -32 ≤ (p.g - s.prev.g).toInt → (p.g - s.prev.g).toInt ≤ 31 →
    -8 ≤ ((p.r - s.prev.r) - (p.g - s.prev.g)).toInt → ((p.r - s.prev.r) - (p.g - s.prev.g)).toInt ≤ 7 →
    -8 ≤ ((p.b - s.prev.b) - (p.g - s.prev.g)).toInt → ((p.b - s.prev.b) - (p.g - s.prev.g)).toInt ≤ 7 → ∃ t,
    step s = .next t ∧
    TookPixel s t p
      [BitVec.ofInt 8 (0x80 + ((p.g - s.prev.g).toInt + 32)),
       BitVec.ofInt 8 (16 * (((p.r - s.prev.r) - (p.g - s.prev.g)).toInt + 8) +
         (((p.b - s.prev.b) - (p.g - s.prev.g)).toInt + 8))]

/-- R147: after the cache-hit test, a change of alpha forces a literal. -/
def Obligations.AlphaChangeForcesLiteral : Prop :=
  ∀ (s : State) (p : Pixel), s.atNewColour p → (s.channels = 3#8 ∨ s.channels = 4#8) →
    lookup s.cache (hash p) ≠ some p → p.a ≠ s.prev.a → ∃ t,
    step s = .next t ∧ TookPixel s t p (literalBytes s.channels p)

/-- R150: a pixel that none of the tests before takes is a literal, its marker chosen by CHANNELS. -/
def Obligations.OtherwiseLiteral : Prop :=
  ∀ (s : State) (p : Pixel), s.atNewColour p → (s.channels = 3#8 ∨ s.channels = 4#8) →
    lookup s.cache (hash p) ≠ some p → ¬ (p.a = s.prev.a ∧ diffFits p s.prev = true) →
    ¬ (p.a = s.prev.a ∧ lumaFits p s.prev = true) → ∃ t,
    step s = .next t ∧ TookPixel s t p (literalBytes s.channels p)

/-- R153: FINISH flushes the pending run and ends the encode; ERR stays. -/
def Obligations.FinishFlushesAndEnds : Prop :=
  ∀ s : State, s.undisturbed → s.phase = .walk → s.pixIdx.toNat = s.pixels → s.run.toNat ≤ 62 → ∃ t,
    step s = .next t ∧ Emitted s t (if s.run = 0#6 then [] else [BitVec.ofNat 8 (0xBF + s.run.toNat)]) ∧
    t = { s with out := t.out, outLen := t.outLen, run := 0#6, phase := .done }

/-- 30_encoding section 6 (never-emitted encodings, an inference the spec marks as its own), items 1 to 8: what the
selector never hands to the bit-packer, in any state; and, over the PIXEL steps and the FINISH step together, that only
a RUN of 62 (field 61) is followed at once by another RUN. -/
def Obligations.SelectorNeverPicksWastefulChunk : Prop :=
  (∀ (s : State) (p : Pixel),
    (s.prevValid = false → s.run = 0#6 → selected s p = [literal s p]) ∧
    (∀ r g b, Instr.rgb r g b ∈ selected s p → s.channels ≠ 4#8) ∧
    (∀ r g b a, Instr.rgba r g b a ∈ selected s p → s.channels = 4#8) ∧
    Instr.diff 2#2 2#2 2#2 ∉ selected s p ∧
    (∀ fg frg fbg, Instr.luma fg frg fbg ∈ selected s p →
      lumaPixel s.prev fg frg fbg = p ∧ diffFits (lumaPixel s.prev fg frg fbg) s.prev = false) ∧
    (∀ idx, Instr.index idx ∈ selected s p → lookup s.cache idx = some p ∧ p ≠ s.prev) ∧
    (s.prevValid = true → lookup s.cache (hash p) = some p →
      ∀ i ∈ selected s p, i.mnemonic = "INDEX" ∨ i.mnemonic = "RUN") ∧
    (s.prevValid = true → p.a = s.prev.a → (diffFits p s.prev = true ∨ lumaFits p s.prev = true) →
      ∀ i ∈ selected s p, i.mnemonic ≠ "RGB" ∧ i.mnemonic ≠ "RGBA")) ∧
  (∀ (n : Nat) (s : State) (before after : List Instr) (a b : BitVec 6),
    chunksFrom n s = before ++ .run a :: .run b :: after → a = 61#6)

/-- 43_chunk_ops section 6 (bytes per step, an inference the spec marks as its own). -/
def Obligations.PixelStepEmitsAtMostSixBytes : Prop :=
  ∀ (s : State) (p : Pixel), s.atPixel p → ∃ t bs,
    step s = .next t ∧ Emitted s t bs ∧ bs.length ≤ 6 ∧
    (s.run = 0#6 → bs.length ≤ 5) ∧ (s.channels ≠ 4#8 → bs.length ≤ 5) ∧
    (s.prevValid = true ∧ p = s.prev → bs.length ≤ 1) ∧
    (¬ (s.prevValid = true ∧ p = s.prev) → 1 ≤ bs.length)

/-! Sequencing, the host and the sink (42 section 1; 10; 70). -/

/-- A step runs the decoded operation: an encoded operation that is next is executed by exec, on the state without
it; the same for the word `withFetchWord` places (log 2, 3). With no operation pending and a ready sink, the step is
the one 42_chunk_selector section 1 enables. -/
def Obligations.StepRunsTheDecodedOperation : Prop :=
  (∀ (s : State) (w : OpWord) (rest : List Move) (i : Instr), s.moves = .op w :: rest →
    decodeOp s.config.magic w = .ok i → i.wf = true → s.sinkTick.sinkReady = true →
    step s = exec i { s.sinkTick with moves := rest }) ∧
  (∀ (s : State) (nbits w : Nat) (i : Instr), decodeOp s.config.magic (tableOp nbits w) = .ok i →
    step (s.withFetchWord nbits w) = exec i { s with sinkReady := true }) ∧
  (∀ s : State, s.undisturbed →
    (s.phase ≠ .walk → step s = .next s) ∧
    (s.phase = .walk → s.pixIdx.toNat < s.pixels → step s = pixelStep s) ∧
    (s.phase = .walk → s.pixIdx.toNat = s.pixels → step s = finishStep s))

/-- R21: every descriptor register reads back what was written; of SRC only the AW low bits exist, and CHANNELS and
COLORSPACE are a byte. Illegal values are not refused. -/
def Obligations.DescriptorReadsBackWhatWasWritten : Prop :=
  ∀ (s : State) (offset : Nat) (w : Word) (rest : List Move), s.phase ≠ .walk →
    s.moves = .write .word offset w :: .read .word offset :: rest →
    offset ∈ [0x0C, 0x10, 0x14, 0x18, 0x20, 0x24] → ∃ t u,
    step s = .next t ∧ step t = .next u ∧
    u.busData.toNat =
      (if offset = 0x0C ∨ offset = 0x10 then w.toNat
        else if offset = 0x14 ∨ offset = 0x18 then w.toNat % 256
        else if offset = 0x20 then w.toNat % 2 ^ s.config.aw
        else w.toNat * 2 ^ 32 % 2 ^ s.config.aw / 2 ^ 32)

/-- R24: a descriptor write takes effect while PHASE is not WALK and is ignored in WALK; a read is answered in every
phase; no step without a host write or a reset changes a descriptor register. -/
def Obligations.DescriptorIsTheHostsAlone : Prop :=
  (∀ (s : State) (offset : Nat) (w : Word) (rest : List Move) (r : Reg), s.phase ≠ .walk →
    s.moves = .write .word offset w :: rest → regAt offset = some r → r ≠ .ctrl →
    step s = .next (regWrite { s.sinkTick with moves := rest } r w)) ∧
  (∀ (s : State) (offset : Nat) (w : Word) (rest : List Move), s.phase = .walk →
    s.moves = .write .word offset w :: rest → offset % 4 = 0 → step s = .next { s.sinkTick with moves := rest }) ∧
  (∀ (s : State) (offset : Nat) (rest : List Move), s.moves = .read .word offset :: rest → offset % 4 = 0 →
    step s = .next { s.sinkTick with moves := rest, busData := busRead s offset }) ∧
  (∀ s t : State, step s = .next t →
    (∀ m ∈ s.moves.head?, m ≠ .reset ∧ ∀ size offset w, m ≠ .write size offset w) →
    t.src = s.src ∧ t.width = s.width ∧ t.height = s.height ∧ t.channels = s.channels ∧ t.colorspace = s.colorspace)

/-- R23: STATUS is PHASE in two bits; writes to it are ignored. -/
def Obligations.StatusShowsThePhase : Prop :=
  (∀ s : State, ((statusWord s).getLsbD 0 = true ↔ s.phase = .walk) ∧
    ((statusWord s).getLsbD 1 = true ↔ s.phase = .done) ∧ ∀ i, 2 ≤ i → (statusWord s).getLsbD i = false) ∧
  (∀ (s : State) (rest : List Move), s.moves = .read .word 0x04 :: rest →
    step s = .next { s.sinkTick with moves := rest, busData := statusWord s }) ∧
  (∀ (s : State) (w : Word) (rest : List Move), s.moves = .write .word 0x04 w :: rest →
    step s = .next { s.sinkTick with moves := rest })

/-- R36: what every aligned word of REG reads; the offsets that are read-only or not listed ignore writes; what a
write to each of the others writes (outside WALK). -/
def Obligations.RegisterMapReadsAndWrites : Prop :=
  (∀ (s : State) (offset : Nat) (rest : List Move), s.moves = .read .word offset :: rest → offset % 4 = 0 → ∃ t,
    step s = .next t ∧ t = { s.sinkTick with moves := rest, busData := t.busData } ∧
    t.busData.toNat =
      (if offset = 0x04 then (if s.phase = .walk then 1 else if s.phase = .done then 2 else 0)
        else if offset = 0x08 then s.err.toNat
        else if offset = 0x0C then s.width.toNat
        else if offset = 0x10 then s.height.toNat
        else if offset = 0x14 then s.channels.toNat
        else if offset = 0x18 then s.colorspace.toNat
        else if offset = 0x20 then s.src.toNat % 2 ^ 32
        else if offset = 0x24 then s.src.toNat / 2 ^ 32
        else if offset = 0x28 then s.outLen.toNat % 2 ^ 32
        else if offset = 0x2C then s.outLen.toNat / 2 ^ 32 % 2 ^ 32
        else if offset = 0x30 then s.outLen.toNat / 2 ^ 64
        else 0)) ∧
  (∀ (s : State) (offset : Nat) (w : Word) (rest : List Move), s.moves = .write .word offset w :: rest →
    offset % 4 = 0 → offset ∉ [0x00, 0x0C, 0x10, 0x14, 0x18, 0x20, 0x24] →
    step s = .next { s.sinkTick with moves := rest }) ∧
  (∀ (s : State) (w : Word) (rest : List Move), s.phase ≠ .walk →
    (s.moves = .write .word 0x0C w :: rest → step s = .next { s.sinkTick with moves := rest, width := w }) ∧
    (s.moves = .write .word 0x10 w :: rest → step s = .next { s.sinkTick with moves := rest, height := w }) ∧
    (s.moves = .write .word 0x14 w :: rest →
      step s = .next { s.sinkTick with moves := rest, channels := BitVec.ofNat 8 w.toNat }) ∧
    (s.moves = .write .word 0x18 w :: rest →
      step s = .next { s.sinkTick with moves := rest, colorspace := BitVec.ofNat 8 w.toNat }) ∧
    (s.moves = .write .word 0x20 w :: rest → ∃ v : BitVec 64,
      step s = .next { s.sinkTick with moves := rest, src := v } ∧
      v.toNat = (s.src.toNat / 2 ^ 32 * 2 ^ 32 + w.toNat) % 2 ^ s.config.aw) ∧
    (s.moves = .write .word 0x24 w :: rest → ∃ v : BitVec 64,
      step s = .next { s.sinkTick with moves := rest, src := v } ∧
      v.toNat = (w.toNat * 2 ^ 32 + s.src.toNat % 2 ^ 32) % 2 ^ s.config.aw))

/-- 20_memory section 5: an access to REG that is not an aligned 32-bit word is refused; that it is a move at all is the
model's choice (log 21). -/
def Obligations.NarrowRegisterAccessIsRefused : Prop :=
  ∀ (s : State) (size : AccessSize) (offset : Nat) (w : Word) (rest : List Move),
    (size ≠ .word ∨ offset % 4 ≠ 0) →
    (s.moves = .write size offset w :: rest → step s = .refused (.regAccessNotWord offset)) ∧
    (s.moves = .read size offset :: rest → step s = .refused (.regAccessNotWord offset))

/-- 70_reset_and_hazards section 1 and 10_state section 11: hardware reset in any phase; what it leaves unspecified is
not stated. That PIX, AW, MAGIC and the host's pending moves stay over a reset is the model's choice, and that OUT is
empty after one in WALK its inference (log 19, log 12). -/
def Obligations.HardwareResetClearsTheBlock : Prop :=
  ∀ (s : State) (rest : List Move), s.moves = .reset :: rest → ∃ t,
    step s = .next t ∧ t.phase = .idle ∧ statusWord t = 0#32 ∧ t.err = 0#8 ∧ t.outLen = 0#67 ∧ t.out = [] ∧
    WorkingStateCleared t ∧ t.pix = s.pix ∧ t.config = s.config ∧ t.moves = rest ∧
    step { t with moves := [], sinkLevels := [] } = .next { t with moves := [], sinkLevels := [] }

/-- 20_memory sections 2 and 9: only a host write changes PIX, one byte of it; a write to the buffer of a running
encode is refused, a write past the address space faults. That the refusal comes at the write, and that writes elsewhere
are taken in WALK, is the model's choice (log 15); so is that a write past the address space is a fault (log 11). -/
def Obligations.PixelMemoryIsTheHostsAlone : Prop :=
  (∀ s t : State, step s = .next t → t.pix = s.pix ∨
    ∃ a v rest, s.moves = .pixWrite a v :: rest ∧ a < 2 ^ s.config.aw ∧
      (s.phase = .walk → a < s.src.toNat ∨ s.src.toNat + s.bufferLength ≤ a) ∧
      t.pix.read a = some v ∧ ∀ b, b ≠ a → t.pix.read b = s.pix.read b) ∧
  (∀ (s : State) (a : Nat) (v : Byte) (rest : List Move), s.moves = .pixWrite a v :: rest →
    (2 ^ s.config.aw ≤ a → step s = .fault (.pixAddressAbsent a)) ∧
    (a < 2 ^ s.config.aw → s.phase = .walk → s.src.toNat ≤ a → a < s.src.toNat + s.bufferLength →
      step s = .refused (.pixChangedDuringEncode a)) ∧
    (a < 2 ^ s.config.aw → (s.phase ≠ .walk ∨ a < s.src.toNat ∨ s.src.toNat + s.bufferLength ≤ a) →
      step s = .next { s.sinkTick with moves := rest, pix := s.pix.write a v }))

/-- 20_memory section 3: during an encode OUT only grows at its end; with no command and no reset outside an encode
it does not change. -/
def Obligations.OutputOnlyGrows : Prop :=
  ∀ s t : State, step s = .next t →
    (s.phase = .walk → s.moves.head? ≠ some .reset → s.out <+: t.out) ∧
    (s.phase ≠ .walk → (∀ m ∈ s.moves.head?, m ≠ .reset ∧ m.isCommand = false) → t.out = s.out)

/-- 10_state section 3 (ERR): a step that changes ERR is a reset, or a START step taken outside WALK, which leaves the
code of its validation there. (A START can also be asked for by a bench move, which is the model's own, log 2.) -/
def Obligations.ErrorCodeChangesOnlyWithStart : Prop :=
  ∀ s t : State, step s = .next t → t.err ≠ s.err →
    ∃ m rest, s.moves = m :: rest ∧
      (m = .reset ∨
        (m.asksForStart s.config.magic ∧ s.phase ≠ .walk ∧
          exec .start { s.sinkTick with moves := rest } = .next t ∧ t.err = s.validation))

/-- 10_state section 4: during an encode PIX_IDX stays or goes up by one, and never past WIDTH x HEIGHT. -/
def Obligations.PixelIndexAdvancesByOne : Prop :=
  ∀ s t : State, step s = .next t → s.phase = .walk → s.moves.head? ≠ some .reset →
    t.pixIdx = s.pixIdx ∨ (s.pixIdx.toNat < s.pixels ∧ t.pixIdx = s.pixIdx + 1#64 ∧ t.pixels = s.pixels)

/-- 70_reset_and_hazards section 3 (back-pressure): while the sink is not ready nothing is added to OUT; a wait of any
length changes nothing but the time; a sink that is never ready again leaves the block where it is for ever. That the
whole step is delayed, that a START which would emit stays pending (with the moves behind it), and that a `wait` is used
up, is the model's choice (log 4); the bench move is its own (log 2). -/
def Obligations.BackPressureOnlyDelays : Prop :=
  (∀ s t : State, step s = .next t → s.sinkTick.sinkReady = false → t.out = s.out ∨ t.out = []) ∧
  (∀ s : State, s.emitsNext → s.sinkTick.sinkReady = false → step s = .next s.sinkTick) ∧
  (∀ (s : State) (rest : List Move), s.moves = .wait :: rest → s.phase = .walk → encoderEmits s = true →
    s.sinkTick.sinkReady = false → step s = .next { s.sinkTick with moves := rest }) ∧
  (∀ (k : Nat) (s : State), s.emitsNext →
    core.run (k + 1) { s with sinkLevels := List.replicate k false ++ [true] } =
      core.run 1 { s with sinkLevels := [true] }) ∧
  (∀ (k : Nat) (s : State), s.emitsNext → s.sinkLevels = [] → s.sinkReady = false → core.run k s = .next s)

/-! Invariants (10_state section 12). -/

/-- 70_reset_and_hazards section 1 and the model's values (log 6, 7): the state right after reset. -/
def Obligations.ResetMeetsTheInvariant : Prop := Invariant State.reset

/-- 10_state section 12 (an inference the spec marks as its own): every step keeps the invariants. -/
def Obligations.StepKeepsTheInvariant : Prop :=
  ∀ s t : State, Invariant s → step s = .next t → Invariant t

/-- The canonical form of PIX is kept by every step, whatever else holds of the state; AW and MAGIC (00_scope section
4) are never changed. -/
def Obligations.StepKeepsMemoryFormAndParameters : Prop :=
  ∀ s t : State, step s = .next t → (s.pix.wf → t.pix.wf) ∧ t.config = s.config

/-- 10_state section 12 item 7 and 44_reference_decoder (the update rule's lockstep): at every step boundary in WALK
a reader of OUT is in step with the block. -/
def Obligations.StepKeepsReaderInLockstep : Prop :=
  ∀ s t : State, Invariant s → (s.phase = .walk → Lockstep s) → step s = .next t → t.phase = .walk → Lockstep t

/-! Headlines. -/

/-- R241: an accepted START reaches DONE after exactly 1 + WIDTH x HEIGHT + 1 steps, or after 1 if it fails. -/
def Obligations.EncodeReachesDoneInExactlyItsSteps : Prop :=
  (∀ s : State, s.startPending → s.phase ≠ .walk → s.validation = 0#8 → s.pixReadable →
    (∃ t : State, core.run (1 + s.pixels + 1) s = .next t ∧ t.phase = .done ∧ t.err = 0#8 ∧
      t.pixIdx.toNat = s.pixels) ∧
    ∀ k, 1 ≤ k → k ≤ s.pixels + 1 → ∃ u : State, core.run k s = .next u ∧ u.phase = .walk) ∧
  (∀ s : State, s.startPending → s.phase ≠ .walk → s.validation ≠ 0#8 →
    ∃ t : State, core.run 1 s = .next t ∧ t.phase = .done ∧ t.err = s.validation ∧ t.out = [])

/-- 42_chunk_selector section 4: the steps of an undisturbed run compute Encode, and Encode is total on readable
buffers. -/
def Obligations.RunComputesEncode : Prop :=
  (∀ s t : State, s.startPending → s.phase ≠ .walk → s.validation = 0#8 →
    encodeFrom { s with moves := [] } = .next t → core.run (s.pixels + 2) s = .next t) ∧
  (∀ s : State, s.phase ≠ .walk → s.pixReadable → ∃ t, encodeFrom s = .next t ∧ t.phase = .done ∧
    t.err = s.validation)

/-- R83: OUT_LEN is 14 plus the lengths of the chunks emitted, which are those the selector handed over from the START
step to the FINISH step, each well-formed; a failed encode has none. -/
def Obligations.LengthLaw : Prop :=
  ∀ (c : Config) (d : Descriptor) (pix : Memory) (s : State), encodeFrom (prepared c d pix) = .next s →
    (s.err ≠ 0#8 → s.out = [] ∧ s.outLen = 0#67) ∧
    (s.err = 0#8 → ∃ t, execStart (prepared c d pix) = .next t ∧
      (∀ i ∈ chunksFrom t.pixels t, i.isChunk = true ∧ i.wf = true) ∧
      s.out = headerBytes c.magic d.width d.height d.channels d.colorspace ++
        (chunksFrom t.pixels t).flatMap (fun i => (encode c.magic i).bytes) ∧
      s.outLen.toNat = 14 + ((chunksFrom t.pixels t).map Instr.byteLength).sum)

/-- 30_encoding section 6 (size bounds, an inference the spec marks as its own). -/
def Obligations.OutputSizeBounds : Prop :=
  ∀ (c : Config) (d : Descriptor) (pix : Memory) (out : List Byte), encodeImage c d pix = .next (0#8, out) →
    14 + (d.channels.toNat + 1) + (d.width.toNat * d.height.toNat - 1 + 61) / 62 ≤ out.length ∧
    out.length ≤ 14 + (d.channels.toNat + 1) * (d.width.toNat * d.height.toNat)

/-- 44_reference_decoder (the round-trip law, to be proved of a model): the reader gives back the bytes of the pixel
buffer. -/
def Obligations.DecodingTheOutputGivesThePixels : Prop :=
  ∀ (c : Config) (d : Descriptor) (pix : Memory) (out : List Byte), encodeImage c d pix = .next (0#8, out) →
    ∃ bytes, decodeStream c.magic out = some bytes ∧
      bytes.length = d.width.toNat * d.height.toNat * d.channels.toNat ∧
      ∀ k < bytes.length, pix.read ((truncAw c d.src).toNat + k) = bytes[k]?

/-- 10_state section 11 (an inference the spec marks as its own): what a host can see of a run depends on the
parameters, the descriptor and the pixels alone, and not on what the block did before. -/
def Obligations.RunDependsOnDescriptorAndPixelsAlone : Prop :=
  ∀ s t : State, s.startPending → t.startPending → s.phase ≠ .walk → t.phase ≠ .walk →
    s.config = t.config → s.src = t.src → s.width = t.width → s.height = t.height → s.channels = t.channels →
    s.colorspace = t.colorspace → s.pix = t.pix → ∀ k,
    (∀ u : State, core.run (k + 1) s = .next u →
      ∃ v : State, core.run (k + 1) t = .next v ∧ u.visible = v.visible) ∧
    (∀ r : Refusal, core.run (k + 1) s = .refused r → core.run (k + 1) t = .refused r)

/-- 95_test_vectors section 1 (the uniform-image property, with the bound the rules give): one literal and one run
chunk. -/
def Obligations.UniformImageIsLiteralAndRun : Prop :=
  ∀ (c : Config) (d : Descriptor) (pix : Memory) (p : Pixel), (prepared c d pix).validation = 0#8 →
    2 ≤ d.width.toNat * d.height.toNat → d.width.toNat * d.height.toNat ≤ 63 →
    (∀ j < d.width.toNat * d.height.toNat, fetchPixel (prepared c d pix) j = .ok p) →
    encodeImage c d pix = .next (0#8,
      headerBytes c.magic d.width d.height d.channels d.colorspace ++ literalBytes d.channels p ++
        [BitVec.ofNat 8 (0xBF + (d.width.toNat * d.height.toNat - 1))])
end

