-- ==== Sys2Proof/Laws/State.lean ====
section
/-! SUPPORT. One lemma per field per update of State, so that no later proof unfolds a record update. -/

namespace Sys2Proof.Machine

variable (s : State)

@[simp] theorem State.emit_config (b : Byte) : (s.emit b).config = s.config := rfl
@[simp] theorem State.emit_src (b : Byte) : (s.emit b).src = s.src := rfl
@[simp] theorem State.emit_width (b : Byte) : (s.emit b).width = s.width := rfl
@[simp] theorem State.emit_height (b : Byte) : (s.emit b).height = s.height := rfl
@[simp] theorem State.emit_channels (b : Byte) : (s.emit b).channels = s.channels := rfl
@[simp] theorem State.emit_colorspace (b : Byte) : (s.emit b).colorspace = s.colorspace := rfl
@[simp] theorem State.emit_phase (b : Byte) : (s.emit b).phase = s.phase := rfl
@[simp] theorem State.emit_pixIdx (b : Byte) : (s.emit b).pixIdx = s.pixIdx := rfl
@[simp] theorem State.emit_prev (b : Byte) : (s.emit b).prev = s.prev := rfl
@[simp] theorem State.emit_prevValid (b : Byte) : (s.emit b).prevValid = s.prevValid := rfl
@[simp] theorem State.emit_run (b : Byte) : (s.emit b).run = s.run := rfl
@[simp] theorem State.emit_cache (b : Byte) : (s.emit b).cache = s.cache := rfl
@[simp] theorem State.emit_err (b : Byte) : (s.emit b).err = s.err := rfl
@[simp] theorem State.emit_outLen (b : Byte) : (s.emit b).outLen = s.outLen + 1#67 := rfl
@[simp] theorem State.emit_out (b : Byte) : (s.emit b).out = s.out ++ [b] := rfl
@[simp] theorem State.emit_pix (b : Byte) : (s.emit b).pix = s.pix := rfl
@[simp] theorem State.emit_moves (b : Byte) : (s.emit b).moves = s.moves := rfl
@[simp] theorem State.emit_busData (b : Byte) : (s.emit b).busData = s.busData := rfl
@[simp] theorem State.emit_sinkReady (b : Byte) : (s.emit b).sinkReady = s.sinkReady := rfl
@[simp] theorem State.emit_sinkLevels (b : Byte) : (s.emit b).sinkLevels = s.sinkLevels := rfl
@[simp] theorem State.emit_draws (b : Byte) : (s.emit b).draws = s.draws := rfl

@[simp] theorem State.remember_config (p : Pixel) : (s.remember p).config = s.config := rfl
@[simp] theorem State.remember_src (p : Pixel) : (s.remember p).src = s.src := rfl
@[simp] theorem State.remember_width (p : Pixel) : (s.remember p).width = s.width := rfl
@[simp] theorem State.remember_height (p : Pixel) : (s.remember p).height = s.height := rfl
@[simp] theorem State.remember_channels (p : Pixel) : (s.remember p).channels = s.channels := rfl
@[simp] theorem State.remember_colorspace (p : Pixel) : (s.remember p).colorspace = s.colorspace := rfl
@[simp] theorem State.remember_phase (p : Pixel) : (s.remember p).phase = s.phase := rfl
@[simp] theorem State.remember_pixIdx (p : Pixel) : (s.remember p).pixIdx = s.pixIdx := rfl
@[simp] theorem State.remember_prev (p : Pixel) : (s.remember p).prev = p := rfl
@[simp] theorem State.remember_prevValid (p : Pixel) : (s.remember p).prevValid = true := rfl
@[simp] theorem State.remember_run (p : Pixel) : (s.remember p).run = s.run := rfl
@[simp] theorem State.remember_cache (p : Pixel) : (s.remember p).cache = storePixel s.cache p := rfl
@[simp] theorem State.remember_err (p : Pixel) : (s.remember p).err = s.err := rfl
@[simp] theorem State.remember_outLen (p : Pixel) : (s.remember p).outLen = s.outLen := rfl
@[simp] theorem State.remember_out (p : Pixel) : (s.remember p).out = s.out := rfl
@[simp] theorem State.remember_pix (p : Pixel) : (s.remember p).pix = s.pix := rfl
@[simp] theorem State.remember_moves (p : Pixel) : (s.remember p).moves = s.moves := rfl
@[simp] theorem State.remember_busData (p : Pixel) : (s.remember p).busData = s.busData := rfl
@[simp] theorem State.remember_sinkReady (p : Pixel) : (s.remember p).sinkReady = s.sinkReady := rfl
@[simp] theorem State.remember_sinkLevels (p : Pixel) : (s.remember p).sinkLevels = s.sinkLevels := rfl
@[simp] theorem State.remember_draws (p : Pixel) : (s.remember p).draws = s.draws := rfl

@[simp] theorem State.raiseErr_config (e : Byte) : (s.raiseErr e).config = s.config := rfl
@[simp] theorem State.raiseErr_src (e : Byte) : (s.raiseErr e).src = s.src := rfl
@[simp] theorem State.raiseErr_width (e : Byte) : (s.raiseErr e).width = s.width := rfl
@[simp] theorem State.raiseErr_height (e : Byte) : (s.raiseErr e).height = s.height := rfl
@[simp] theorem State.raiseErr_channels (e : Byte) : (s.raiseErr e).channels = s.channels := rfl
@[simp] theorem State.raiseErr_colorspace (e : Byte) : (s.raiseErr e).colorspace = s.colorspace := rfl
@[simp] theorem State.raiseErr_phase (e : Byte) : (s.raiseErr e).phase = .done := rfl
@[simp] theorem State.raiseErr_pixIdx (e : Byte) : (s.raiseErr e).pixIdx = s.pixIdx := rfl
@[simp] theorem State.raiseErr_prev (e : Byte) : (s.raiseErr e).prev = s.prev := rfl
@[simp] theorem State.raiseErr_prevValid (e : Byte) : (s.raiseErr e).prevValid = s.prevValid := rfl
@[simp] theorem State.raiseErr_run (e : Byte) : (s.raiseErr e).run = s.run := rfl
@[simp] theorem State.raiseErr_cache (e : Byte) : (s.raiseErr e).cache = s.cache := rfl
@[simp] theorem State.raiseErr_err (e : Byte) : (s.raiseErr e).err = e := rfl
@[simp] theorem State.raiseErr_outLen (e : Byte) : (s.raiseErr e).outLen = s.outLen := rfl
@[simp] theorem State.raiseErr_out (e : Byte) : (s.raiseErr e).out = s.out := rfl
@[simp] theorem State.raiseErr_pix (e : Byte) : (s.raiseErr e).pix = s.pix := rfl
@[simp] theorem State.raiseErr_moves (e : Byte) : (s.raiseErr e).moves = s.moves := rfl
@[simp] theorem State.raiseErr_busData (e : Byte) : (s.raiseErr e).busData = s.busData := rfl
@[simp] theorem State.raiseErr_sinkReady (e : Byte) : (s.raiseErr e).sinkReady = s.sinkReady := rfl
@[simp] theorem State.raiseErr_sinkLevels (e : Byte) : (s.raiseErr e).sinkLevels = s.sinkLevels := rfl
@[simp] theorem State.raiseErr_draws (e : Byte) : (s.raiseErr e).draws = s.draws := rfl

@[simp] theorem State.init_config : (s.init).config = s.config := rfl
@[simp] theorem State.init_src : (s.init).src = s.src := rfl
@[simp] theorem State.init_width : (s.init).width = s.width := rfl
@[simp] theorem State.init_height : (s.init).height = s.height := rfl
@[simp] theorem State.init_channels : (s.init).channels = s.channels := rfl
@[simp] theorem State.init_colorspace : (s.init).colorspace = s.colorspace := rfl
@[simp] theorem State.init_phase : (s.init).phase = s.phase := rfl
@[simp] theorem State.init_pixIdx : (s.init).pixIdx = 0#64 := rfl
@[simp] theorem State.init_prev : (s.init).prev = Config.freePixel (s.draws + 64) := rfl
@[simp] theorem State.init_prevValid : (s.init).prevValid = false := rfl
@[simp] theorem State.init_run : (s.init).run = 0#6 := rfl
@[simp] theorem State.init_cache : (s.init).cache = emptyCache s.draws := rfl
@[simp] theorem State.init_err : (s.init).err = 0#8 := rfl
@[simp] theorem State.init_outLen : (s.init).outLen = 0#67 := rfl
@[simp] theorem State.init_out : (s.init).out = [] := rfl
@[simp] theorem State.init_pix : (s.init).pix = s.pix := rfl
@[simp] theorem State.init_moves : (s.init).moves = s.moves := rfl
@[simp] theorem State.init_busData : (s.init).busData = s.busData := rfl
@[simp] theorem State.init_sinkReady : (s.init).sinkReady = s.sinkReady := rfl
@[simp] theorem State.init_sinkLevels : (s.init).sinkLevels = s.sinkLevels := rfl
@[simp] theorem State.init_draws : (s.init).draws = s.draws + 65 := rfl

@[simp] theorem State.hardwareReset_config : (s.hardwareReset).config = s.config := rfl
@[simp] theorem State.hardwareReset_src : (s.hardwareReset).src = truncAw s.config (Config.freeBits (s.draws + 65)) := rfl
@[simp] theorem State.hardwareReset_width : (s.hardwareReset).width = (Config.freeBits (s.draws + 66)).setWidth 32 := rfl
@[simp] theorem State.hardwareReset_height : (s.hardwareReset).height = (Config.freeBits (s.draws + 67)).setWidth 32 := rfl
@[simp] theorem State.hardwareReset_channels : (s.hardwareReset).channels = (Config.freeBits (s.draws + 68)).setWidth 8 := rfl
@[simp] theorem State.hardwareReset_colorspace : (s.hardwareReset).colorspace = (Config.freeBits (s.draws + 69)).setWidth 8 := rfl
@[simp] theorem State.hardwareReset_phase : (s.hardwareReset).phase = .idle := rfl
@[simp] theorem State.hardwareReset_pixIdx : (s.hardwareReset).pixIdx = 0#64 := rfl
@[simp] theorem State.hardwareReset_prev : (s.hardwareReset).prev = Config.freePixel (s.draws + 64) := rfl
@[simp] theorem State.hardwareReset_prevValid : (s.hardwareReset).prevValid = false := rfl
@[simp] theorem State.hardwareReset_run : (s.hardwareReset).run = 0#6 := rfl
@[simp] theorem State.hardwareReset_cache : (s.hardwareReset).cache = emptyCache s.draws := rfl
@[simp] theorem State.hardwareReset_err : (s.hardwareReset).err = 0#8 := rfl
@[simp] theorem State.hardwareReset_outLen : (s.hardwareReset).outLen = 0#67 := rfl
@[simp] theorem State.hardwareReset_out : (s.hardwareReset).out = [] := rfl
@[simp] theorem State.hardwareReset_pix : (s.hardwareReset).pix = s.pix := rfl
@[simp] theorem State.hardwareReset_moves : (s.hardwareReset).moves = s.moves := rfl
@[simp] theorem State.hardwareReset_busData : (s.hardwareReset).busData = s.busData := rfl
@[simp] theorem State.hardwareReset_sinkReady : (s.hardwareReset).sinkReady = s.sinkReady := rfl
@[simp] theorem State.hardwareReset_sinkLevels : (s.hardwareReset).sinkLevels = s.sinkLevels := rfl
@[simp] theorem State.hardwareReset_draws : (s.hardwareReset).draws = s.draws + 70 := rfl

@[simp] theorem State.sinkTick_config : s.sinkTick.config = s.config := by
  unfold State.sinkTick; split <;> rfl
@[simp] theorem State.sinkTick_src : s.sinkTick.src = s.src := by
  unfold State.sinkTick; split <;> rfl
@[simp] theorem State.sinkTick_width : s.sinkTick.width = s.width := by
  unfold State.sinkTick; split <;> rfl
@[simp] theorem State.sinkTick_height : s.sinkTick.height = s.height := by
  unfold State.sinkTick; split <;> rfl
@[simp] theorem State.sinkTick_channels : s.sinkTick.channels = s.channels := by
  unfold State.sinkTick; split <;> rfl
@[simp] theorem State.sinkTick_colorspace : s.sinkTick.colorspace = s.colorspace := by
  unfold State.sinkTick; split <;> rfl
@[simp] theorem State.sinkTick_phase : s.sinkTick.phase = s.phase := by
  unfold State.sinkTick; split <;> rfl
@[simp] theorem State.sinkTick_pixIdx : s.sinkTick.pixIdx = s.pixIdx := by
  unfold State.sinkTick; split <;> rfl
@[simp] theorem State.sinkTick_prev : s.sinkTick.prev = s.prev := by
  unfold State.sinkTick; split <;> rfl
@[simp] theorem State.sinkTick_prevValid : s.sinkTick.prevValid = s.prevValid := by
  unfold State.sinkTick; split <;> rfl
@[simp] theorem State.sinkTick_run : s.sinkTick.run = s.run := by
  unfold State.sinkTick; split <;> rfl
@[simp] theorem State.sinkTick_cache : s.sinkTick.cache = s.cache := by
  unfold State.sinkTick; split <;> rfl
@[simp] theorem State.sinkTick_err : s.sinkTick.err = s.err := by
  unfold State.sinkTick; split <;> rfl
@[simp] theorem State.sinkTick_outLen : s.sinkTick.outLen = s.outLen := by
  unfold State.sinkTick; split <;> rfl
@[simp] theorem State.sinkTick_out : s.sinkTick.out = s.out := by
  unfold State.sinkTick; split <;> rfl
@[simp] theorem State.sinkTick_pix : s.sinkTick.pix = s.pix := by
  unfold State.sinkTick; split <;> rfl
@[simp] theorem State.sinkTick_moves : s.sinkTick.moves = s.moves := by
  unfold State.sinkTick; split <;> rfl
@[simp] theorem State.sinkTick_busData : s.sinkTick.busData = s.busData := by
  unfold State.sinkTick; split <;> rfl
@[simp] theorem State.sinkTick_draws : s.sinkTick.draws = s.draws := by
  unfold State.sinkTick; split <;> rfl

/-- With no level to come, the sink's readiness stays. -/
theorem State.sinkTick_of_nil (h : s.sinkLevels = []) : s.sinkTick = s := by
  unfold State.sinkTick; rw [h]

/-- The next level to come is the one presented. -/
theorem State.sinkTick_of_cons (l : Bool) (ls : List Bool) (h : s.sinkLevels = l :: ls) :
    s.sinkTick = { s with sinkReady := l, sinkLevels := ls } := by
  unfold State.sinkTick; rw [h]

end Sys2Proof.Machine
end

