-- ==== Sys2Proof/Laws/Ops.lean ====
section
/-! SUPPORT. What each shared operation can do, once: Emit, the cache, FetchPixel, the chunk operations, the
selector's hand-over to the bit-packer, back-pressure. -/

namespace Sys2Proof.Machine

/-! Emit. -/

/-- Consecutive Emits append their bytes and count them. -/
theorem State.emitAll_eq (s : State) (bs : List Byte) :
    s.emitAll bs = { s with out := s.out ++ bs, outLen := s.outLen + BitVec.ofNat 67 bs.length } := by
  induction bs generalizing s with
  | nil => simp [State.emitAll]
  | cons b bs ih =>
    have h : BitVec.ofNat 67 (bs.length + 1) = 1#67 + BitVec.ofNat 67 bs.length := by
      rw [Nat.add_comm, BitVec.ofNat_add]
    simp only [State.emitAll, ih, List.length_cons, h]
    simp [State.emit, BitVec.add_assoc]

@[simp] theorem State.emitAll_config (s : State) (bs : List Byte) : (s.emitAll bs).config = s.config := by
  simp [State.emitAll_eq]
@[simp] theorem State.emitAll_src (s : State) (bs : List Byte) : (s.emitAll bs).src = s.src := by
  simp [State.emitAll_eq]
@[simp] theorem State.emitAll_width (s : State) (bs : List Byte) : (s.emitAll bs).width = s.width := by
  simp [State.emitAll_eq]
@[simp] theorem State.emitAll_height (s : State) (bs : List Byte) : (s.emitAll bs).height = s.height := by
  simp [State.emitAll_eq]
@[simp] theorem State.emitAll_channels (s : State) (bs : List Byte) : (s.emitAll bs).channels = s.channels := by
  simp [State.emitAll_eq]
@[simp] theorem State.emitAll_colorspace (s : State) (bs : List Byte) : (s.emitAll bs).colorspace = s.colorspace := by
  simp [State.emitAll_eq]
@[simp] theorem State.emitAll_phase (s : State) (bs : List Byte) : (s.emitAll bs).phase = s.phase := by
  simp [State.emitAll_eq]
@[simp] theorem State.emitAll_pixIdx (s : State) (bs : List Byte) : (s.emitAll bs).pixIdx = s.pixIdx := by
  simp [State.emitAll_eq]
@[simp] theorem State.emitAll_prev (s : State) (bs : List Byte) : (s.emitAll bs).prev = s.prev := by
  simp [State.emitAll_eq]
@[simp] theorem State.emitAll_prevValid (s : State) (bs : List Byte) : (s.emitAll bs).prevValid = s.prevValid := by
  simp [State.emitAll_eq]
@[simp] theorem State.emitAll_run (s : State) (bs : List Byte) : (s.emitAll bs).run = s.run := by
  simp [State.emitAll_eq]
@[simp] theorem State.emitAll_cache (s : State) (bs : List Byte) : (s.emitAll bs).cache = s.cache := by
  simp [State.emitAll_eq]
@[simp] theorem State.emitAll_err (s : State) (bs : List Byte) : (s.emitAll bs).err = s.err := by
  simp [State.emitAll_eq]
@[simp] theorem State.emitAll_pix (s : State) (bs : List Byte) : (s.emitAll bs).pix = s.pix := by
  simp [State.emitAll_eq]
@[simp] theorem State.emitAll_moves (s : State) (bs : List Byte) : (s.emitAll bs).moves = s.moves := by
  simp [State.emitAll_eq]
@[simp] theorem State.emitAll_busData (s : State) (bs : List Byte) : (s.emitAll bs).busData = s.busData := by
  simp [State.emitAll_eq]
@[simp] theorem State.emitAll_sinkReady (s : State) (bs : List Byte) : (s.emitAll bs).sinkReady = s.sinkReady := by
  simp [State.emitAll_eq]
@[simp] theorem State.emitAll_sinkLevels (s : State) (bs : List Byte) : (s.emitAll bs).sinkLevels = s.sinkLevels := by
  simp [State.emitAll_eq]
@[simp] theorem State.emitAll_draws (s : State) (bs : List Byte) : (s.emitAll bs).draws = s.draws := by
  simp [State.emitAll_eq]
@[simp] theorem State.emitAll_out (s : State) (bs : List Byte) : (s.emitAll bs).out = s.out ++ bs := by
  simp [State.emitAll_eq]
@[simp] theorem State.emitAll_outLen (s : State) (bs : List Byte) :
    (s.emitAll bs).outLen = s.outLen + BitVec.ofNat 67 bs.length := by
  simp [State.emitAll_eq]

theorem State.emitAll_append (s : State) (bs cs : List Byte) : s.emitAll (bs ++ cs) = (s.emitAll bs).emitAll cs := by
  induction bs generalizing s with
  | nil => rfl
  | cons b bs ih => exact ih (s.emit b)

/-! The cache (41 R123, R124). -/

@[simp] theorem slotAt_storePixel_same (c : Vector Slot 64) (p : Pixel) :
    slotAt (storePixel c p) (hash p) = { valid := true, px := p } := by
  simp [slotAt, storePixel, Vector.get_eq_getElem]

theorem slotAt_storePixel_other (c : Vector Slot 64) (p : Pixel) (i : BitVec 6) (h : i ≠ hash p) :
    slotAt (storePixel c p) i = slotAt c i := by
  have hne : (hash p).toNat ≠ i.toNat := fun e => h (BitVec.eq_of_toNat_eq e.symm)
  simp [slotAt, storePixel, Vector.get_eq_getElem, hne]

/-- Two caches with the same slots are the same cache. -/
theorem cache_ext (c d : Vector Slot 64) (h : ∀ i, slotAt c i = slotAt d i) : c = d := by
  apply Vector.ext
  intro k hk
  have := h (BitVec.ofNat 6 k)
  simpa [slotAt, Vector.get_eq_getElem, Nat.mod_eq_of_lt hk] using this

/-- Storing what its slot already holds changes nothing (41 R125). -/
theorem storePixel_of_held (c : Vector Slot 64) (p : Pixel) (h : slotAt c (hash p) = { valid := true, px := p }) :
    storePixel c p = c := by
  apply cache_ext
  intro i
  by_cases hi : i = hash p
  · subst hi; simp [h]
  · exact slotAt_storePixel_other c p i hi

theorem lookup_eq_some (c : Vector Slot 64) (i : BitVec 6) (p : Pixel) :
    lookup c i = some p ↔ slotAt c i = { valid := true, px := p } := by
  unfold lookup
  rcases slotAt c i with ⟨v, q⟩
  cases v <;> simp

theorem hit_iff (c : Vector Slot 64) (p : Pixel) :
    hit c p = true ↔ slotAt c (hash p) = { valid := true, px := p } := by
  simp [hit, lookup_eq_some]

theorem lookup_storePixel_same (c : Vector Slot 64) (p : Pixel) : lookup (storePixel c p) (hash p) = some p := by
  simp [lookup_eq_some]

theorem lookup_storePixel_other (c : Vector Slot 64) (p : Pixel) (i : BitVec 6) (h : i ≠ hash p) :
    lookup (storePixel c p) i = lookup c i := by
  simp [lookup, slotAt_storePixel_other c p i h]

/-- INIT's cache holds no valid slot (40 R101). -/
@[simp] theorem slotAt_emptyCache_valid (n : Nat) (i : BitVec 6) : (slotAt (emptyCache n) i).valid = false := by
  simp [slotAt, emptyCache, Vector.get_eq_getElem]

/-! FetchPixel: it depends on the parameters, SRC, CHANNELS and PIX alone (20 R53, R54). -/

theorem pixByte_congr (s t : State) (k : Nat) (h1 : t.config = s.config) (h2 : t.src = s.src) (h3 : t.pix = s.pix) :
    pixByte t k = pixByte s k := by
  unfold pixByte; rw [h1, h2, h3]

theorem fetchPixel_congr (s t : State) (i : Nat) (h1 : t.config = s.config) (h2 : t.src = s.src) (h3 : t.pix = s.pix)
    (h4 : t.channels = s.channels) : fetchPixel t i = fetchPixel s i := by
  unfold fetchPixel
  simp only [h4, pixByte_congr s t _ h1 h2 h3]

/-- A byte is fetched exactly where the address exists and is readable. -/
theorem pixByte_eq_ok (s : State) (k : Nat) (v : Byte) :
    pixByte s k = .ok v ↔ s.src.toNat + k < 2 ^ s.config.aw ∧ s.pix.read (s.src.toNat + k) = some v := by
  unfold pixByte
  by_cases h : 2 ^ s.config.aw ≤ s.src.toNat + k
  · have : ¬ s.src.toNat + k < 2 ^ s.config.aw := by omega
    simp [h, this]
  · have h' : s.src.toNat + k < 2 ^ s.config.aw := by omega
    cases hr : s.pix.read (s.src.toNat + k) <;> simp [h, h', hr]

/-! The chunk operations (43 R160). -/

/-- Every chunk operation appends its encoding and does nothing else. -/
theorem exec_chunk (i : Instr) (h : i.isChunk = true) (magic : BitVec 32) (s : State) :
    exec i s = .next (s.emitAll (encode magic i).bytes) := by
  cases i with
  | hdr => simp [Instr.isChunk] at h
  | start => simp [Instr.isChunk] at h
  | index => rfl
  | diff => rfl
  | luma => rfl
  | run => rfl
  | rgb => rfl
  | rgba => rfl

/-- The header operation appends the header. -/
theorem exec_hdr (w h : Word) (c cs : Byte) (s : State) :
    exec (.hdr w h c cs) s = .next (s.emitAll (packHeader s.config.magic w h c cs)) := rfl

/-- Chunk operations one after the other append their encodings one after the other. -/
theorem runOps_chunks (is : List Instr) (h : ∀ i ∈ is, i.isChunk = true) (magic : BitVec 32) (s : State) :
    runOps is s = .next (s.emitAll (is.flatMap fun i => (encode magic i).bytes)) := by
  induction is generalizing s with
  | nil => rfl
  | cons i is ih =>
    have hi := h i (by simp)
    simp only [runOps, exec_chunk i hi magic, List.flatMap_cons, State.emitAll_append]
    exact ih (fun j hj => h j (by simp [hj])) _

theorem literal_isChunk (s : State) (p : Pixel) : (literal s p).isChunk = true := by
  unfold literal; split <;> rfl

theorem classify_isChunk (s : State) (p : Pixel) : (classify s p).isChunk = true := by
  unfold classify
  split_ifs <;> first | exact literal_isChunk s p | rfl

theorem flushed_isChunk (s : State) : ∀ i ∈ flushed s, i.isChunk = true := by
  unfold flushed
  split <;> simp [opRun, Instr.isChunk]

/-- The selector hands over chunks only. -/
theorem selected_isChunk (s : State) (p : Pixel) : ∀ i ∈ selected s p, i.isChunk = true := by
  intro i hi
  unfold selected at hi
  split_ifs at hi with h1 h2
  · simp only [List.mem_singleton] at hi; subst hi; rfl
  · simp at hi
  · rcases List.mem_append.1 hi with hi | hi
    · exact flushed_isChunk s i hi
    · simp only [List.mem_singleton] at hi; subst hi; exact classify_isChunk s p

/-- The bytes the selector's chunks amount to; MAGIC plays no part in a chunk. -/
def selectedBytes (s : State) (p : Pixel) : List Byte := (selected s p).flatMap fun i => (encode 0#32 i).bytes

/-! What a PIXEL step writes besides OUT and OUT_LEN (42 R141, R151). -/

@[simp] theorem afterPixel_config (s : State) (p : Pixel) : (afterPixel s p).config = s.config := by
  unfold afterPixel; split <;> rfl
@[simp] theorem afterPixel_src (s : State) (p : Pixel) : (afterPixel s p).src = s.src := by
  unfold afterPixel; split <;> rfl
@[simp] theorem afterPixel_width (s : State) (p : Pixel) : (afterPixel s p).width = s.width := by
  unfold afterPixel; split <;> rfl
@[simp] theorem afterPixel_height (s : State) (p : Pixel) : (afterPixel s p).height = s.height := by
  unfold afterPixel; split <;> rfl
@[simp] theorem afterPixel_channels (s : State) (p : Pixel) : (afterPixel s p).channels = s.channels := by
  unfold afterPixel; split <;> rfl
@[simp] theorem afterPixel_colorspace (s : State) (p : Pixel) : (afterPixel s p).colorspace = s.colorspace := by
  unfold afterPixel; split <;> rfl
@[simp] theorem afterPixel_phase (s : State) (p : Pixel) : (afterPixel s p).phase = s.phase := by
  unfold afterPixel; split <;> rfl
@[simp] theorem afterPixel_err (s : State) (p : Pixel) : (afterPixel s p).err = s.err := by
  unfold afterPixel; split <;> rfl
@[simp] theorem afterPixel_outLen (s : State) (p : Pixel) : (afterPixel s p).outLen = s.outLen := by
  unfold afterPixel; split <;> rfl
@[simp] theorem afterPixel_out (s : State) (p : Pixel) : (afterPixel s p).out = s.out := by
  unfold afterPixel; split <;> rfl
@[simp] theorem afterPixel_pix (s : State) (p : Pixel) : (afterPixel s p).pix = s.pix := by
  unfold afterPixel; split <;> rfl
@[simp] theorem afterPixel_moves (s : State) (p : Pixel) : (afterPixel s p).moves = s.moves := by
  unfold afterPixel; split <;> rfl
@[simp] theorem afterPixel_busData (s : State) (p : Pixel) : (afterPixel s p).busData = s.busData := by
  unfold afterPixel; split <;> rfl
@[simp] theorem afterPixel_sinkReady (s : State) (p : Pixel) : (afterPixel s p).sinkReady = s.sinkReady := by
  unfold afterPixel; split <;> rfl
@[simp] theorem afterPixel_sinkLevels (s : State) (p : Pixel) : (afterPixel s p).sinkLevels = s.sinkLevels := by
  unfold afterPixel; split <;> rfl
@[simp] theorem afterPixel_draws (s : State) (p : Pixel) : (afterPixel s p).draws = s.draws := by
  unfold afterPixel; split <;> rfl
@[simp] theorem afterPixel_pixIdx (s : State) (p : Pixel) : (afterPixel s p).pixIdx = s.pixIdx + 1#64 := by
  unfold afterPixel; split <;> rfl

/-- A pixel that extends a run changes RUN and PIX_IDX alone. -/
theorem afterPixel_of_run (s : State) (p : Pixel) (h : continuesRun s p = true) :
    afterPixel s p = { s with run := runAfter s, pixIdx := s.pixIdx + 1#64 } := by
  simp [afterPixel, h]

/-- Any other pixel is stored, becomes PREV, and leaves no run pending. -/
theorem afterPixel_of_new (s : State) (p : Pixel) (h : continuesRun s p = false) :
    afterPixel s p = { s with
      cache := storePixel s.cache p, prev := p, prevValid := true, run := 0#6, pixIdx := s.pixIdx + 1#64 } := by
  simp [afterPixel, h, State.remember]

/-- The PIXEL step on a fetched pixel always succeeds (60 R210), with this state. -/
theorem pixelStepOn_eq (s : State) (p : Pixel) :
    pixelStepOn s p = .next (afterPixel (s.emitAll (selectedBytes s p)) p) := by
  unfold pixelStepOn
  rw [runOps_chunks _ (selected_isChunk s p) 0#32]
  rfl

/-- The FINISH step always succeeds (42 R153), with this state. -/
theorem finishStep_eq (s : State) :
    finishStep s = .next { s.emitAll ((flushed s).flatMap fun i => (encode 0#32 i).bytes) with
      run := 0#6, phase := .done } := by
  unfold finishStep
  rw [runOps_chunks _ (flushed_isChunk s) 0#32]

/-! The START step (40 R107): the three ways it can end. -/

theorem execStart_of_walk (s : State) (h : s.phase = .walk) : execStart s = .next s := by
  simp [execStart, h]

theorem execStart_of_invalid (s : State) (h : s.phase ≠ .walk) (hv : s.validation ≠ 0#8) :
    execStart s = .next (s.init.raiseErr s.validation) := by
  simp [execStart, h, hv]

theorem execStart_of_valid (s : State) (h : s.phase ≠ .walk) (hv : s.validation = 0#8) :
    execStart s = .next { s.init.emitAll (packHeader s.config.magic s.width s.height s.channels s.colorspace) with
      phase := .walk } := by
  simp [execStart, h, hv, execHdr]

theorem execStart_completes (s : State) : ∃ t, execStart s = .next t := by
  by_cases h : s.phase = .walk
  · exact ⟨_, execStart_of_walk s h⟩
  · by_cases hv : s.validation = 0#8
    · exact ⟨_, execStart_of_valid s h hv⟩
    · exact ⟨_, execStart_of_invalid s h hv⟩

/-- Every operation answers a next state in every state (43 R160; 60 R210). -/
theorem exec_completes (i : Instr) (s : State) : ∃ t, exec i s = .next t := by
  cases i with
  | start => exact execStart_completes s
  | hdr w h c cs => exact ⟨_, exec_hdr w h c cs s⟩
  | index idx => exact ⟨_, exec_chunk (.index idx) rfl 0#32 s⟩
  | diff fr fg fb => exact ⟨_, exec_chunk (.diff fr fg fb) rfl 0#32 s⟩
  | luma fg frg fbg => exact ⟨_, exec_chunk (.luma fg frg fbg) rfl 0#32 s⟩
  | run n => exact ⟨_, exec_chunk (.run n) rfl 0#32 s⟩
  | rgb r g b => exact ⟨_, exec_chunk (.rgb r g b) rfl 0#32 s⟩
  | rgba r g b a => exact ⟨_, exec_chunk (.rgba r g b a) rfl 0#32 s⟩

/-! Back-pressure (70 R237). -/

theorem offered_ready (e : Bool) (w : State) (o : Host.Outcome State Fault Refusal) (h : w.sinkReady = true) :
    offered e w o = o := by
  simp [offered, h]

theorem offered_silent (w : State) (o : Host.Outcome State Fault Refusal) : offered false w o = o := rfl

theorem offered_waits (w : State) (o : Host.Outcome State Fault Refusal) (h : w.sinkReady = false) :
    offered true w o = .next w := by
  simp [offered, h]

/-! The encoder's step (42 R140). -/

theorem encoderStep_of_quiescent (s : State) (h : s.phase ≠ .walk) : encoderStep s = .next s := by
  simp [encoderStep, h]

/-- With a ready sink the encoder takes the PIXEL step while pixels remain, the FINISH step after the last. -/
theorem encoderStep_of_pixel (s : State) (h : s.phase = .walk) (hi : s.pixIdx.toNat < s.pixels)
    (hr : s.sinkReady = true) : encoderStep s = pixelStep s := by
  simp [encoderStep, h, hi, offered_ready _ s _ hr]

theorem encoderStep_of_finish (s : State) (h : s.phase = .walk) (hi : s.pixIdx.toNat = s.pixels)
    (hr : s.sinkReady = true) : encoderStep s = finishStep s := by
  simp [encoderStep, h, hi, offered_ready _ s _ hr]

/-- What an encoder step can answer: the state as it was (quiescent, or waiting for the sink), a PIXEL step, or a
FINISH step. -/
theorem encoderStep_cases {s t : State} (h : encoderStep s = .next t) :
    t = s ∨
    (s.phase = .walk ∧ s.pixIdx.toNat < s.pixels ∧ ∃ p, fetchPixel s s.pixIdx.toNat = .ok p ∧
      t = afterPixel (s.emitAll (selectedBytes s p)) p) ∨
    (s.phase = .walk ∧ s.pixIdx.toNat = s.pixels ∧
      t = { s.emitAll ((flushed s).flatMap fun i => (encode 0#32 i).bytes) with run := 0#6, phase := .done }) := by
  unfold encoderStep at h
  split_ifs at h with h1 h2 h3
  · unfold offered at h
    split_ifs at h with h4
    · exact .inl (by simpa using h.symm)
    · unfold pixelStep at h
      cases hf : fetchPixel s s.pixIdx.toNat with
      | error r => rw [hf] at h; simp at h
      | ok p =>
        rw [hf] at h
        simp only [pixelStepOn_eq] at h
        exact .inr (.inl ⟨h1, h2, p, rfl, by simpa using h.symm⟩)
  · unfold offered at h
    split_ifs at h with h4
    · exact .inl (by simpa using h.symm)
    · rw [finishStep_eq] at h
      exact .inr (.inr ⟨h1, h3, by simpa using h.symm⟩)
  · exact .inl (by simpa using h.symm)
  · exact .inl (by simpa using h.symm)

end Sys2Proof.Machine
end

