-- ==== Sys2Proof/Laws/Encode.lean ====
section
/-! SUPPORT. The whole encode (42 R154): what the walk and the FINISH step add to OUT are the chunks the selector hands
over, and those do not depend on what OUT holds. -/

namespace Sys2Proof.Machine

/-- The chunks a PIXEL step selects do not depend on OUT. -/
@[simp] theorem selected_emitAll (s : State) (bs : List Byte) (p : Pixel) :
    selected (s.emitAll bs) p = selected s p := by
  simp [State.emitAll_eq, selected, continuesRun, flushed, classify, literal]

/-- What a PIXEL step writes besides OUT does not depend on OUT. -/
theorem afterPixel_emitAll (s : State) (bs : List Byte) (p : Pixel) :
    afterPixel (s.emitAll bs) p = (afterPixel s p).emitAll bs := by
  have hc : continuesRun (s.emitAll bs) p = continuesRun s p := by simp [continuesRun]
  cases h : continuesRun s p with
  | true =>
    rw [afterPixel_of_run _ _ (hc.trans h), afterPixel_of_run _ _ h]
    simp [State.emitAll_eq, runAfter]
  | false =>
    rw [afterPixel_of_new _ _ (hc.trans h), afterPixel_of_new _ _ h]
    simp [State.emitAll_eq]

theorem chunksFrom_emitAll (n : Nat) (s : State) (bs : List Byte) :
    chunksFrom n (s.emitAll bs) = chunksFrom n s := by
  induction n generalizing s with
  | zero => simp [chunksFrom, flushed]
  | succ n ih =>
    have hf : fetchPixel (s.emitAll bs) s.pixIdx.toNat = fetchPixel s s.pixIdx.toNat :=
      fetchPixel_congr _ _ _ (by simp) (by simp) (by simp) (by simp)
    simp only [chunksFrom, State.emitAll_pixIdx, hf, selected_emitAll, afterPixel_emitAll, ih]

/-- The selector hands over chunks only. -/
theorem chunksFrom_isChunk (n : Nat) (s : State) : ∀ i ∈ chunksFrom n s, i.isChunk = true := by
  induction n generalizing s with
  | zero => exact flushed_isChunk s
  | succ n ih =>
    intro i hi
    unfold chunksFrom at hi
    split at hi
    · exact (List.mem_append.1 hi).elim (selected_isChunk s _ i) (ih _ i)
    · simp at hi

/-- A PIXEL step that answers a next state fetched a pixel. -/
theorem pixelStep_eq_next {s t : State} (h : pixelStep s = .next t) :
    ∃ p, fetchPixel s s.pixIdx.toNat = .ok p ∧ t = (afterPixel s p).emitAll (selectedBytes s p) := by
  unfold pixelStep at h
  split at h
  · next p hp =>
    rw [pixelStepOn_eq, afterPixel_emitAll] at h
    exact ⟨p, hp, by simpa using h.symm⟩
  · cases h

/-- The walk and the FINISH step append the chunks the selector hands over, in order. -/
theorem walkPixels_finish_out (n : Nat) {s u v : State} (hw : walkPixels n s = .next u) (hf : finishStep u = .next v) :
    v.out = s.out ++ (chunksFrom n s).flatMap (fun i => (encode 0#32 i).bytes) := by
  induction n generalizing s with
  | zero =>
    cases hw
    rw [finishStep_eq] at hf
    cases hf
    simp [chunksFrom]
  | succ n ih =>
    unfold walkPixels at hw
    split at hw
    · next t ht =>
      obtain ⟨p, hp, rfl⟩ := pixelStep_eq_next ht
      rw [ih hw, chunksFrom_emitAll]
      simp [chunksFrom, hp, selectedBytes]
    · next o hne => exact absurd hw (hne u)

end Sys2Proof.Machine
end

