-- ==== Sys2Proof/Laws/Memory.lean ====
section
/-! SUPPORT. The laws of PIX: read after write, the canonical form, and that it is kept. -/

namespace Sys2Proof.Machine

@[simp] theorem Memory.read_nil (a : Nat) : Memory.read [] a = none := rfl

theorem Memory.read_write_same (m : Memory) (a : Nat) (v : Byte) : (m.write a v).read a = some v := by
  induction m with
  | nil => simp [Memory.write, Memory.read]
  | cons c m ih =>
    obtain ⟨b, w⟩ := c
    simp only [Memory.write]
    split_ifs with h1 h2
    · simp [Memory.read]
    · simp [Memory.read]
    · simp [Memory.read, h2, ih]

theorem Memory.read_write_other (m : Memory) (a a' : Nat) (v : Byte) (h : a' ≠ a) :
    (m.write a v).read a' = m.read a' := by
  induction m with
  | nil => simp [Memory.write, Memory.read, h]
  | cons c m ih =>
    obtain ⟨b, w⟩ := c
    simp only [Memory.write]
    split_ifs with h1 h2
    · simp [Memory.read, h]
    · subst h2; simp [Memory.read, h]
    · simp [Memory.read, ih]

/-- A cell of a written memory is the cell written or one that was there. -/
theorem Memory.mem_write (m : Memory) (a : Nat) (v : Byte) (c : Host.Cell) (h : c ∈ m.write a v) :
    c = (a, v) ∨ c ∈ m := by
  induction m with
  | nil => simpa [Memory.write] using h
  | cons d m ih =>
    obtain ⟨b, w⟩ := d
    simp only [Memory.write] at h
    split_ifs at h with h1 h2
    · simpa using h
    · rcases List.mem_cons.1 h with h | h
      · exact .inl h
      · exact .inr (List.mem_cons_of_mem _ h)
    · rcases List.mem_cons.1 h with h | h
      · exact .inr (by simp [h])
      · exact (ih h).imp_right (List.mem_cons_of_mem _)

/-- The one operation that changes PIX keeps its canonical form. -/
theorem Memory.write_wf (m : Memory) (a : Nat) (v : Byte) (h : m.wf) : (m.write a v).wf := by
  induction m with
  | nil => simp [Memory.write]
  | cons c m ih =>
    obtain ⟨b, w⟩ := c
    have hm : Memory.wf m := List.Pairwise.of_cons h
    have hb : ∀ x ∈ m, b < x.1 := fun x hx => List.rel_of_pairwise_cons h hx
    simp only [Memory.write]
    split_ifs with h1 h2
    · refine List.Pairwise.cons ?_ h
      intro x hx
      rcases List.mem_cons.1 hx with rfl | hx
      · exact h1
      · exact lt_trans h1 (hb x hx)
    · subst h2
      exact List.Pairwise.cons hb hm
    · refine List.Pairwise.cons ?_ (ih hm)
      intro x hx
      rcases Memory.mem_write m a v x hx with rfl | hx
      · show b < a; omega
      · exact hb x hx

theorem Memory.reset_wf : State.reset.pix.wf := List.Pairwise.nil

/-- In the canonical form, reading every address alike is being the same list: an address is listed at most once. -/
theorem Memory.read_of_mem (m : Memory) (h : m.wf) (a : Nat) (v : Byte) (hc : (a, v) ∈ m) : m.read a = some v := by
  induction m with
  | nil => simp at hc
  | cons c m ih =>
    obtain ⟨b, w⟩ := c
    have hb : ∀ x ∈ m, b < x.1 := fun x hx => List.rel_of_pairwise_cons h hx
    rcases List.mem_cons.1 hc with hc | hc
    · cases hc; simp [Memory.read]
    · have : b < a := hb _ hc
      have hne : a ≠ b := by omega
      simp [Memory.read, hne, ih (List.Pairwise.of_cons h) hc]

end Sys2Proof.Machine
end

