-- ==== Sys2Proof/Laws/PerInstr.lean ====
section
/-! SUPPORT. One lemma per constructor of Instr: the encoding has the table's length, and the first byte of a
well-formed chunk gives that length (30_encoding R72, R83). -/

namespace Sys2Proof.Laws.EncodedLength

/-- The encoded bytes are as many as the row says (START puts none into the stream), and ChunkLen of a well-formed
chunk's first byte is its length. -/
def Statement (i : Instr) : Prop :=
  ∀ magic : BitVec 32,
    (encode magic i).bytes.length = (if i = .start then 0 else i.byteLength) ∧
    (i.wf = true → i.isChunk = true → ∀ b ∈ (encode magic i).bytes.head?, chunkLen b = i.byteLength)

theorem chunkLen_packIndex : ∀ idx : BitVec 6, chunkLen (packIndex idx) = 1 := by decide

theorem chunkLen_packDiff : ∀ fr fg fb : BitVec 2, chunkLen (packDiff fr fg fb) = 1 := by decide

theorem chunkLen_packLumaFirst : ∀ fg : BitVec 6, chunkLen (packLumaFirst fg) = 2 := by decide

theorem chunkLen_packRun : ∀ n : BitVec 6, n.toNat ≤ 61 → chunkLen (packRun n) = 1 := by decide

theorem index (idx : BitVec 6) : Statement (.index idx) := fun _ =>
  ⟨rfl, fun _ _ b hb => by cases hb; exact chunkLen_packIndex idx⟩

theorem diff (fr fg fb : BitVec 2) : Statement (.diff fr fg fb) := fun _ =>
  ⟨rfl, fun _ _ b hb => by cases hb; exact chunkLen_packDiff fr fg fb⟩

theorem luma (fg : BitVec 6) (frg fbg : BitVec 4) : Statement (.luma fg frg fbg) := fun _ =>
  ⟨rfl, fun _ _ b hb => by cases hb; exact chunkLen_packLumaFirst fg⟩

theorem run (n : BitVec 6) : Statement (.run n) := fun _ =>
  ⟨rfl, fun hw _ b hb => by
    cases hb
    exact chunkLen_packRun n (by
      simpa [Instr.wf, Instr.runInRange, Instr.headerDimensionsInRange, Instr.headerChannelsInRange,
        Instr.headerColorspaceInRange] using hw)⟩

theorem rgb (r g b : Byte) : Statement (.rgb r g b) := fun _ =>
  ⟨rfl, fun _ _ c hc => by cases hc; rfl⟩

theorem rgba (r g b a : Byte) : Statement (.rgba r g b a) := fun _ =>
  ⟨rfl, fun _ _ c hc => by cases hc; rfl⟩

theorem hdr (width height : Word) (channels colorspace : Byte) : Statement (.hdr width height channels colorspace) :=
  fun _ => ⟨rfl, fun _ h => by simp [Instr.isChunk] at h⟩

theorem start : Statement .start := fun _ => ⟨rfl, fun _ h => by simp [Instr.isChunk] at h⟩

end Sys2Proof.Laws.EncodedLength
end

