-- ==== Sys2Proof/Laws/Step.lean ====
section
/-! SUPPORT. What one step can do, once: from this every whole-machine fact follows without unfolding `step`. -/

namespace Sys2Proof.Machine

/-- The ways a step can answer a next state, `u` being the state with the sink's level presented. -/
inductive StepCase (s u t : State) : Prop
  /-- the encoder's step, with no move pending or after a `wait` -/
  | encoder (rest : List Move) (pending : s.moves = rest ∨ s.moves = .wait :: rest)
      (h : encoderStep { u with moves := rest } = .next t) (hnil : s.moves = rest → rest = [])
  /-- a command that would emit waits for the sink -/
  | commandWaits (m : Move) (rest : List Move) (pending : s.moves = m :: rest) (command : m.isCommand = true)
      (sink : u.sinkReady = false) (h : t = u)
  /-- a command is executed: START from the host, any operation from the bench -/
  | command (m : Move) (rest : List Move) (i : Instr) (pending : s.moves = m :: rest) (command : m.isCommand = true)
      (asked : (i = .start ∧ ∃ w, m = .write .word 0x00 w ∧ w.getLsbD 0 = true) ∨
        ∃ w, m = .op w ∧ decodeOp s.config.magic w = .ok i)
      (sink : u.sinkReady = true ∨ emitsNow i { u with moves := rest } = false)
      (h : exec i { u with moves := rest } = .next t)
  /-- a write to a register other than CTRL -/
  | regWrite (offset : Nat) (w : Word) (rest : List Move) (r : Reg) (pending : s.moves = .write .word offset w :: rest)
      (hr : regAt offset = some r) (hc : r ≠ .ctrl) (h : t = regWrite { u with moves := rest } r w)
  /-- a write that is ignored: no command in it, or an offset that is not listed -/
  | ignoredWrite (offset : Nat) (w : Word) (rest : List Move) (pending : s.moves = .write .word offset w :: rest)
      (h : t = { u with moves := rest })
  /-- a read -/
  | read (offset : Nat) (rest : List Move) (pending : s.moves = .read .word offset :: rest)
      (h : t = { u with moves := rest, busData := busRead u offset })
  /-- the host writes a byte of PIX -/
  | pixWrite (a : Nat) (v : Byte) (rest : List Move) (pending : s.moves = .pixWrite a v :: rest)
      (inSpace : a < 2 ^ u.config.aw) (outside : u.phase = .walk → inBuffer u a = false)
      (h : t = { u with moves := rest, pix := u.pix.write a v })
  /-- hardware reset -/
  | reset (rest : List Move) (pending : s.moves = .reset :: rest)
      (h : t = ({ u with moves := rest }).hardwareReset)

/-- CTRL is at offset 0 and nowhere else (10 R36). -/
theorem regAt_eq_ctrl (offset : Nat) : regAt offset = some .ctrl ↔ offset = 0 := by
  constructor
  · intro h
    unfold regAt at h
    split at h <;> first | rfl | cases h
  · rintro rfl; rfl

theorem command_cases {w : OpWord} {waiting s t : State} (h : command w waiting s = .next t) :
    (waiting.sinkReady = false ∧ t = waiting) ∨
    ∃ i, decodeOp s.config.magic w = .ok i ∧ (waiting.sinkReady = true ∨ emitsNow i s = false) ∧
      exec i s = .next t := by
  unfold command at h
  cases hd : decodeOp s.config.magic w with
  | error e => rw [hd] at h; simp at h
  | ok i =>
    rw [hd] at h
    simp only [offered] at h
    split_ifs at h with h1
    · simp only [Bool.and_eq_true, Bool.not_eq_true'] at h1
      exact .inl ⟨h1.2, by simpa using h.symm⟩
    · refine .inr ⟨i, rfl, ?_, h⟩
      cases hr : waiting.sinkReady <;> simp_all

/-- A read does not depend on the moves still to come. -/
theorem busRead_moves (s : State) (rest : List Move) (offset : Nat) :
    busRead { s with moves := rest } offset = busRead s offset := by
  unfold busRead
  cases regAt offset with
  | none => rfl
  | some r => cases r <;> rfl

theorem hostWrite_cases {size : AccessSize} {offset : Nat} {w : Word} {waiting s t : State}
    (h : hostWrite size offset w waiting s = .next t) :
    size = .word ∧
    ((∃ r, regAt offset = some r ∧ r ≠ .ctrl ∧ t = regWrite s r w) ∨ t = s ∨
      (offset = 0 ∧ w.getLsbD 0 = true ∧ command (.ctrl w) waiting s = .next t)) := by
  unfold hostWrite at h
  by_cases h1 : size ≠ .word ∨ offset % 4 ≠ 0
  · rw [if_pos h1] at h; cases h
  rw [if_neg h1] at h
  have hs : size = .word := by
    by_contra hne; exact h1 (.inl hne)
  refine ⟨hs, ?_⟩
  cases hr : regAt offset with
  | none =>
    rw [hr] at h
    exact .inr (.inl (by simpa using h.symm))
  | some r =>
    rw [hr] at h
    cases r with
    | ctrl =>
      have h0 : offset = 0 := (regAt_eq_ctrl offset).1 hr
      simp only at h
      by_cases hb : w.getLsbD 0 = true
      · rw [if_pos hb] at h
        exact .inr (.inr ⟨h0, hb, h⟩)
      · rw [if_neg hb] at h
        cases h
        exact .inr (.inl rfl)
    | status | err | width | height | channels | colorspace | srcLow | srcHigh | outLen0 | outLen1 | outLen2 =>
      exact .inl ⟨_, rfl, by simp, by simpa using h.symm⟩

/-- What the oldest pending move, or the encoder, can do. -/
theorem nextMove_cases {s u t : State} (hu : u.moves = s.moves) (hcf : u.config = s.config)
    (h : nextMove u = .next t) : StepCase s u t := by
  unfold nextMove at h
  rw [hu] at h
  cases hm : s.moves with
  | nil =>
    rw [hm] at h hu
    refine .encoder [] (.inl hm) ?_ (fun _ => rfl)
    have : ({ u with moves := [] } : State) = u := by rw [← hu]
    rw [this]; exact h
  | cons m rest =>
    rw [hm] at h
    cases m with
    | wait => exact .encoder rest (.inr hm) h (fun e => by rw [hm] at e; simp at e)
    | write size offset w =>
      obtain ⟨rfl, ⟨r, hr, hc, ht⟩ | ht | ⟨h0, hb, hcmd⟩⟩ := hostWrite_cases h
      · exact .regWrite offset w rest r hm hr hc ht
      · exact .ignoredWrite offset w rest hm ht
      · subst h0
        rcases command_cases hcmd with ⟨hs, ht⟩ | ⟨i, hd, hs, he⟩
        · exact .commandWaits _ rest hm (by simpa [Move.isCommand] using hb) hs ht
        · simp only [decodeOp, decodeCtrl, hb, if_true] at hd
          cases hd
          exact .command _ rest .start hm (by simpa [Move.isCommand] using hb) (.inl ⟨rfl, w, rfl, hb⟩) hs he
    | read size offset =>
      simp only [doMove, hostRead] at h
      split_ifs at h with h1
      have hs : size = .word := by
        by_contra hne; exact h1 (.inl hne)
      subst hs
      rw [busRead_moves] at h
      cases h
      exact .read offset rest hm rfl
    | pixWrite a v =>
      simp only [doMove, hostPixWrite] at h
      split_ifs at h with h1 h2
      cases h
      refine .pixWrite a v rest hm (by omega) (fun hw => ?_) rfl
      have h2' : ¬ ((decide (u.phase = Phase.walk) && inBuffer u a) = true) := h2
      rw [hw] at h2'
      simpa using h2'
    | reset =>
      cases h
      exact .reset rest hm rfl
    | op w =>
      rcases command_cases h with ⟨hs, ht⟩ | ⟨i, hd, hs, he⟩
      · exact .commandWaits _ rest hm rfl hs ht
      · exact .command _ rest i hm rfl (.inr ⟨w, rfl, by rw [← hcf]; exact hd⟩) hs he

/-- What a step can do (42 R140; 70 R242). -/
theorem step_cases {s t : State} (h : step s = .next t) : StepCase s s.sinkTick t :=
  nextMove_cases (State.sinkTick_moves s) (State.sinkTick_config s) h

/-- A run takes a step that answers a next state, and goes on from there. -/
theorem core_run_succ {s t : State} (h : step s = .next t) (k : Nat) : core.run (k + 1) s = core.run k t := by
  have h' : core.step s = .next t := h
  simp [Host.Core.run, h']

/-- What any operation can do: append bytes, or be the START step. -/
theorem exec_cases {i : Instr} {s t : State} (h : exec i s = .next t) :
    (i ≠ .start ∧ ∃ bs, t = s.emitAll bs) ∨ (i = .start ∧ execStart s = .next t) := by
  cases i with
  | start => exact .inr ⟨rfl, h⟩
  | hdr w hh c cs => exact .inl ⟨by simp, _, by rw [exec_hdr] at h; simpa using h.symm⟩
  | index idx => exact .inl ⟨by simp, _, by rw [exec_chunk _ rfl 0#32] at h; simpa using h.symm⟩
  | diff fr fg fb => exact .inl ⟨by simp, _, by rw [exec_chunk _ rfl 0#32] at h; simpa using h.symm⟩
  | luma fg frg fbg => exact .inl ⟨by simp, _, by rw [exec_chunk _ rfl 0#32] at h; simpa using h.symm⟩
  | run n => exact .inl ⟨by simp, _, by rw [exec_chunk _ rfl 0#32] at h; simpa using h.symm⟩
  | rgb r g b => exact .inl ⟨by simp, _, by rw [exec_chunk _ rfl 0#32] at h; simpa using h.symm⟩
  | rgba r g b a => exact .inl ⟨by simp, _, by rw [exec_chunk _ rfl 0#32] at h; simpa using h.symm⟩

/-- What a START can do: nothing in WALK, an error, or the header and WALK (40 R107). -/
theorem execStart_cases {s t : State} (h : execStart s = .next t) :
    (s.phase = .walk ∧ t = s) ∨
    (s.phase ≠ .walk ∧ s.validation ≠ 0#8 ∧ t = s.init.raiseErr s.validation) ∨
    (s.phase ≠ .walk ∧ s.validation = 0#8 ∧
      t = { s.init.emitAll (packHeader s.config.magic s.width s.height s.channels s.colorspace) with
        phase := .walk }) := by
  by_cases hw : s.phase = .walk
  · rw [execStart_of_walk s hw] at h
    exact .inl ⟨hw, by simpa using h.symm⟩
  · by_cases hv : s.validation = 0#8
    · rw [execStart_of_valid s hw hv] at h
      exact .inr (.inr ⟨hw, hv, by simpa using h.symm⟩)
    · rw [execStart_of_invalid s hw hv] at h
      exact .inr (.inl ⟨hw, hv, by simpa using h.symm⟩)

end Sys2Proof.Machine
end

