-- ==== Sys2Proof/Tests/Slice0.lean ====
section
/-! SUPPORT. Tests: the well-formedness checks, words written out from 30_encoding, single steps against the vectors of
95_test_vectors, and for every statement with hypotheses a witness that meets them. -/

namespace Sys2Proof.Tests

open Sys2Proof.Machine

/-! The well-formedness checks refuse an ill-formed term each. -/

theorem test_wf_refuses_run_63 : (Instr.run 62#6).wf = false := by decide
theorem test_wf_refuses_run_64 : (Instr.run 63#6).wf = false := by decide
theorem test_wf_refuses_zero_width : (Instr.hdr 0#32 1#32 3#8 0#8).wf = false := by decide
theorem test_wf_refuses_zero_height : (Instr.hdr 1#32 0#32 3#8 0#8).wf = false := by decide
theorem test_wf_refuses_two_channels : (Instr.hdr 1#32 1#32 2#8 0#8).wf = false := by decide
theorem test_wf_refuses_colorspace_two : (Instr.hdr 1#32 1#32 4#8 2#8).wf = false := by decide
theorem test_wf_accepts_run_62 : (Instr.run 61#6).wf = true := by decide

/-! Decoding: words written out bit by bit from 30_encoding R76 to R81, R71; mnemonics and operands from 95. -/

/-- 95 V-SEL-4: INDEX 42 is `00 101010`. -/
theorem test_decode_index : decodeChunk [0b00101010#8] = .ok (.index 42#6, []) := by rfl
/-- 95 V-DIFF: deltas (1,-2,0) are `01 11 00 10`. -/
theorem test_decode_diff :
    (decodeChunk [0b01110010#8]).map (fun x => x.1.operands) = .ok [1, -2, 0] := by rfl
/-- 95 V-LUMA: (-32,-8,7) is `10 000000`, `0000 1111`. -/
theorem test_decode_luma :
    (decodeChunk [0b10000000#8, 0b00001111#8]).map (fun x => x.1.operands) = .ok [-32, -8, 7] := by rfl
/-- 95 V-RUN: 62 is `11 111101`. -/
theorem test_decode_run : (decodeChunk [0b11111101#8]).map (fun x => x.1.operands) = .ok [62] := by rfl
/-- 30 R80: the marker is tested before the tag of RUN; the bytes after the chunk are left. -/
theorem test_decode_rgb :
    decodeChunk [0b11111110#8, 254#8, 255#8, 0#8, 7#8] = .ok (.rgb 254#8 255#8 0#8, [7#8]) := by rfl
/-- 30 R81. -/
theorem test_decode_rgba :
    decodeChunk [0b11111111#8, 10#8, 20#8, 30#8, 40#8] = .ok (.rgba 10#8 20#8 30#8 40#8, []) := by rfl
/-- 95 V-HDR-2. -/
theorem test_decode_hdr :
    decodeHeader 0x716F6966#32 [0x71#8, 0x6F#8, 0x69#8, 0x66#8, 1#8, 2#8, 3#8, 4#8, 10#8, 11#8, 12#8, 13#8, 4#8, 1#8] =
      .ok (.hdr 0x01020304#32 0x0A0B0C0D#32 4#8 1#8) := by rfl
/-- 95 V-CMD-4: only bit 0 of the word written to CTRL matters. -/
theorem test_decode_start : decodeCtrl 0xFFFFFFFF#32 = .ok .start := by rfl
theorem test_decode_no_command : decodeCtrl 0xFFFFFFFE#32 = .error .noCommand := by rfl
/-- 44 R192: a truncated chunk is rejected by name. -/
theorem test_decode_truncated : decodeChunk [0xFF#8, 1#8, 2#8, 3#8] = .error .truncated := by rfl

/-! States. -/

/-- Bytes at consecutive addresses. -/
def cells (a : Nat) : List Byte → Memory
  | [] => []
  | b :: bs => (a, b) :: cells (a + 1) bs

/-- A block after reset with a descriptor (SRC = 0x1000, COLORSPACE = 0) and a pixel buffer. -/
def image (c : Byte) (w h : Word) (bytes : List Byte) : State :=
  { State.reset with
    src := 0x1000#64, width := w, height := h, channels := c, colorspace := 0#8, pix := cells 0x1000 bytes }

/-- The image in WALK, its header emitted. -/
def walking (c : Byte) (w h : Word) (bytes : List Byte) : State :=
  { image c w h bytes with
    phase := .walk, outLen := 14#67, out := headerBytes 0x716F6966#32 w h c 0#8 }

def rgb (r g b : Byte) : Pixel := { r := r, g := g, b := b, a := 0#8 }

def rgba (r g b a : Byte) : Pixel := { r := r, g := g, b := b, a := a }

/-- A 3-channel image of two pixels, the first of them processed, with `run` copies pending. -/
def second3 (q p : Pixel) (run : BitVec 6) : State :=
  { (walking 3#8 2#32 1#32 [q.r, q.g, q.b, p.r, p.g, p.b]).remember q with pixIdx := 1#64, run := run }

/-- A 4-channel image of two pixels, the first of them processed. -/
def second4 (q p : Pixel) (run : BitVec 6) : State :=
  { (walking 4#8 2#32 1#32 [q.r, q.g, q.b, q.a, p.r, p.g, p.b, p.a]).remember q with pixIdx := 1#64, run := run }

/-- The bytes a step adds to OUT. -/
def added (s : State) : Option (List Byte) :=
  match step s with
  | .next t => some (t.out.drop s.out.length)
  | .fault _ | .refused _ => none

/-- One thing of the state after a step. -/
def after (s : State) : State :=
  match step s with
  | .next t => t
  | .fault _ | .refused _ => s

/-! Single steps. -/

/-- 43 R163. -/
theorem test_exec_index : added (State.reset.withFetchWord 8 0x16) = some [0x16#8] := by decide
/-- 95 V-DIFF: (-1,0,0). -/
theorem test_exec_diff : added (State.reset.withFetchWord 8 0x5A) = some [0x5A#8] := by decide
/-- 95 V-LUMA: (8,1,-2). -/
theorem test_exec_luma : added (State.reset.withFetchWord 16 0x96A8) = some [0xA8#8, 0x96#8] := by decide
/-- 95 V-RUN: 62. -/
theorem test_exec_run : added (State.reset.withFetchWord 8 0xFD) = some [0xFD#8] := by decide
/-- 95 V-LIT. -/
theorem test_exec_rgb :
    added (State.reset.withFetchWord 32 0x00FFFE_FE) = some [0xFE#8, 0xFE#8, 0xFF#8, 0x00#8] := by decide
/-- 95 V-LIT. -/
theorem test_exec_rgba :
    added (State.reset.withFetchWord 40 0x281E140A_FF) = some [0xFF#8, 0x0A#8, 0x14#8, 0x1E#8, 0x28#8] := by decide
/-- 95 V-HDR-4. -/
theorem test_exec_hdr :
    (match exec (.hdr 256#32 65536#32 4#8 0#8) State.reset with | .next t => t.out | _ => []) =
      [0x71#8, 0x6F#8, 0x69#8, 0x66#8, 0#8, 0#8, 1#8, 0#8, 0#8, 1#8, 0#8, 0#8, 4#8, 0#8] := by decide
/-- 95 V-VAL-1: SRC = 0 is reported before anything else. -/
theorem test_exec_start_null :
    (after (State.reset.withFetchWord 32 1)).err = 1#8 ∧ (after (State.reset.withFetchWord 32 1)).phase = .done := by
  decide
/-- 95 P1, START. -/
theorem test_exec_start_walks :
    (after ((image 3#8 2#32 2#32 []).withFetchWord 32 1)).out =
      [0x71#8, 0x6F#8, 0x69#8, 0x66#8, 0#8, 0#8, 0#8, 2#8, 0#8, 0#8, 0#8, 2#8, 3#8, 0#8] := by decide

/-- 95 V-HASH. -/
theorem test_hash :
    [rgba 255 255 255 255, rgb 255 255 255, rgba 0 0 0 255, rgba 10 20 30 40, rgb 74 10 10, rgb 128 128 128].map hash =
      [38#6, 49#6, 53#6, 12#6, 22#6, 0#6] := by decide

/-- 95 V-SEL-1: the first pixel is a literal and is stored in slot 60. -/
theorem test_step_first_pixel :
    added (walking 3#8 1#32 1#32 [7#8, 8#8, 9#8]) = some [0xFE#8, 7#8, 8#8, 9#8] ∧
    lookup (after (walking 3#8 1#32 1#32 [7#8, 8#8, 9#8])).cache 60#6 = some (rgb 7 8 9) := by decide
/-- 95 V-DIR-1 and V-DIR-2: current minus previous. -/
theorem test_step_direction :
    added (second3 (rgb 100 100 100) (rgb 101 101 101) 0) = some [0x7F#8] ∧
    added (second3 (rgb 101 101 101) (rgb 100 100 100) 0) = some [0x55#8] := by decide
/-- 95 V-WRAP-1, pixel 2: 255 to 1 is +2. -/
theorem test_step_luma_wraps : added (second3 (rgb 255 0 0) (rgb 1 254 255) 0) = some [0x9E#8, 0xC9#8] := by decide
/-- 95 V-LUMA-SEQ, pixels 4 and 5: dG = -33 and dG = 32 are literals. -/
theorem test_step_luma_bounds :
    added (second3 (rgb 130 130 130) (rgb 130 97 130) 0) = some [0xFE#8, 130#8, 97#8, 130#8] ∧
    added (second3 (rgb 130 97 130) (rgb 130 129 139) 0) = some [0xFE#8, 130#8, 129#8, 139#8] := by decide
/-- 95 V-SEL-7: a change of alpha alone is a literal. -/
theorem test_step_alpha :
    added (second4 (rgba 1 1 1 1) (rgba 1 1 1 2) 0) = some [0xFF#8, 1#8, 1#8, 1#8, 2#8] := by decide
/-- 42 R145: the run goes out before the literal. -/
theorem test_step_flush : added (second3 (rgb 5 5 5) (rgb 90 80 70) 2) = some [0xC1#8, 0xFE#8, 90#8, 80#8, 70#8] := by
  decide
/-- 95 section 4: RUN 61 and an equal pixel emit 0xFD and leave RUN 0. -/
theorem test_step_cap :
    added (second3 (rgb 1 2 3) (rgb 1 2 3) 61) = some [0xFD#8] ∧ (after (second3 (rgb 1 2 3) (rgb 1 2 3) 61)).run = 0#6 := by
  decide
/-- 95 V-SEL-3: an equal pixel is a run and no INDEX. -/
theorem test_step_run :
    added (second4 (rgba 0 0 0 0) (rgba 0 0 0 0) 0) = some [] ∧
    (after (second4 (rgba 0 0 0 0) (rgba 0 0 0 0) 0)).run = 1#6 := by decide
/-- 95 V-CMD-2: a descriptor write in WALK is ignored. -/
theorem test_write_in_walk :
    (after { walking 3#8 2#32 2#32 [] with moves := [.write .word 0x0C 9#32] }).width = 2#32 := by decide
/-- 93 U2. -/
theorem test_pix_write_in_walk :
    step { walking 3#8 2#32 2#32 [] with moves := [.pixWrite 0x100B 1#8] } = .refused (.pixChangedDuringEncode 0x100B) := by
  rfl

/-! Witnesses: hypotheses that are met. -/

/-- A state in WALK before its first pixel, with a buffer of one 3-channel pixel. -/
def one : State := walking 3#8 1#32 1#32 [7#8, 8#8, 9#8]

/-- Two new colours that neither delta fits, run 0. -/
def fresh3 : State := second3 (rgb 10 10 10) (rgb 200 100 50) 0

/-- DecodeUndoesEncode, ChunkOperationsOnlyAppend: at the bounds of the checks. -/
theorem witness_wf_bounds :
    (Instr.run 61#6).wf = true ∧ (Instr.hdr 1#32 1#32 3#8 0#8).wf = true ∧
    (Instr.hdr 0xFFFFFFFF#32 0xFFFFFFFF#32 4#8 1#8).wf = true ∧ (Instr.run 61#6).isChunk = true := by decide

theorem witness_ReadItemReencodesToItsBytes :
    decodeChunk [0xBF#8, 0xFF#8, 0x00#8] = .ok (.luma 63#6 15#4 15#4, [0x00#8]) ∧
    (decodeHeader 0x716F6966#32 (headerBytes 0x716F6966#32 1#32 1#32 3#8 0#8)) = .ok (.hdr 1#32 1#32 3#8 0#8) :=
  ⟨rfl, rfl⟩

theorem witness_HashFormula_no_alpha : (rgb 255 255 255).a = 0#8 := rfl

theorem witness_HashNeedsOnlyLowSixBits :
    (rgb 0 0 0).r.setWidth 6 = (rgb 64 0 0).r.setWidth 6 ∧ (rgb 0 0 0).g.setWidth 6 = (rgb 64 0 0).g.setWidth 6 ∧
    (rgb 0 0 0).b.setWidth 6 = (rgb 64 0 0).b.setWidth 6 ∧ (rgb 0 0 0).a.setWidth 6 = (rgb 64 0 0).a.setWidth 6 := by
  decide

theorem witness_IndexAppendsSlotNumber :
    (Reader.initial.produce (rgb 7 8 9)).slot 60#6 = some (rgb 7 8 9) ∧
    (Reader.initial.produce (rgb 0 0 0)).slot 0#6 = some (rgb 0 0 0) ∧
    (Reader.initial.produce (rgb 21 0 0)).slot 63#6 = some (rgb 21 0 0) := by decide

theorem witness_DiffAppendsBiasedDeltas :
    (rgb 255 1 254).a = (rgb 0 0 0).a ∧ diffFits (rgb 255 1 254) (rgb 0 0 0) = true ∧
    (Reader.initial.produce (rgb 0 0 0)).dprev = some (rgb 0 0 0) := by decide

theorem witness_LumaAppendsBiasedDeltas :
    (rgb 60 68 75).a = (rgb 100 100 100).a ∧ lumaFits (rgb 60 68 75) (rgb 100 100 100) = true ∧
    lumaFits (rgb 38 31 38) (rgb 0 0 0) = true ∧
    (Reader.initial.produce (rgb 100 100 100)).dprev = some (rgb 100 100 100) := by decide

theorem witness_RunAppendsLengthMinusOne :
    (61#6).toNat ≤ 61 ∧ 1 ≤ (1#6).toNat ∧ (62#6).toNat ≤ 62 ∧
    (Reader.initial.produce (rgb 1 2 3)).dprev = some (rgb 1 2 3) ∧
    (Reader.initial.produce (rgb 1 2 3)).outpx.length + (62#6).toNat ≤ 63 := by decide

theorem witness_FailingStartRaisesItsCode :
    State.reset.phase ≠ .walk ∧ State.reset.validation ≠ 0#8 ∧ (image 3#8 0#32 5#32 []).validation = 2#8 ∧
    (image 5#8 5#32 5#32 []).validation = 3#8 ∧
    ({ image 3#8 5#32 5#32 [] with colorspace := 2#8 }).validation = 4#8 := by decide

theorem witness_ValidStartEmitsHeaderAndWalks :
    (image 4#8 1#32 1#32 []).phase ≠ .walk ∧ (image 4#8 1#32 1#32 []).src ≠ 0#64 ∧
    (image 4#8 1#32 1#32 []).width ≠ 0#32 ∧ (image 4#8 1#32 1#32 []).height ≠ 0#32 ∧
    ((image 4#8 1#32 1#32 []).channels = 3#8 ∨ (image 4#8 1#32 1#32 []).channels = 4#8) ∧
    ((image 4#8 1#32 1#32 []).colorspace = 0#8 ∨ (image 4#8 1#32 1#32 []).colorspace = 1#8) := by decide

/-- ControlWriteIsStartOutsideWalk: each clause, and a word of which only bit 0 counts. -/
theorem witness_ControlWriteIsStartOutsideWalk :
    (0xFFFFFFFE#32).getLsbD 0 = false ∧ (0xFFFFFFFF#32).getLsbD 0 = true ∧ one.phase = .walk ∧
    (image 3#8 1#32 1#32 []).phase ≠ .walk ∧ (image 3#8 1#32 1#32 []).sinkTick.sinkReady = true ∧
    ({ State.reset with sinkReady := false }).sinkTick.sinkReady = false ∧
    ({ State.reset with sinkReady := false }).validation ≠ 0#8 ∧
    ({ State.reset with moves := [.write .word 0x00 1#32] }).moves = [.write .word 0x00 1#32] ∧
    ({ State.reset with moves := [.read .word 0x00] }).moves = [.read .word 0x00] := by decide

theorem witness_StoreOverwritesOneSlot :
    slotAt (storePixel State.reset.cache (rgb 1 2 3)) (hash (rgb 1 2 3)) = { valid := true, px := rgb 1 2 3 } ∧
    (5#6) ≠ hash (rgb 1 2 3) := by decide

theorem witness_HitNeedsTheVeryPixel :
    (slotAt State.reset.cache 0#6).valid = false ∧
    (slotAt (storePixel State.reset.cache (rgb 0 0 0)) 0#6).valid = true ∧ rgb 0 0 0 ≠ rgb 64 0 0 ∧
    hash (rgb 0 0 0) = hash (rgb 64 0 0) := by decide

theorem witness_PixelIsReadFromItsOwnBytes :
    one.channels = 3#8 ∧ fetchPixel one 0 = .ok (rgb 7 8 9) ∧ pixByte one 2 = .ok 9#8 ∧
    (second4 (rgba 1 1 1 1) (rgba 1 1 1 2) 0).channels = 4#8 ∧
    fetchPixel (second4 (rgba 1 1 1 1) (rgba 1 1 1 2) 0) 1 = .ok (rgba 1 1 1 2) := ⟨rfl, rfl, rfl, rfl, rfl⟩

/-- UnreadablePixelIsRefused: a byte short of the buffer, and an address space a byte short of it. -/
theorem witness_UnreadablePixelIsRefused :
    (walking 3#8 1#32 1#32 [7#8, 8#8]).undisturbed ∧ (walking 3#8 1#32 1#32 [7#8, 8#8]).phase = .walk ∧
    (walking 3#8 1#32 1#32 [7#8, 8#8]).pixIdx.toNat < (walking 3#8 1#32 1#32 [7#8, 8#8]).pixels ∧
    (walking 3#8 1#32 1#32 [7#8, 8#8]).channels = 3#8 ∧
    (¬ ∃ p, fetchPixel (walking 3#8 1#32 1#32 [7#8, 8#8]) 0 = .ok p) ∧
    step (walking 3#8 1#32 1#32 [7#8, 8#8]) = .refused (.pixUnreadable 0x1002) ∧
    step { one with config := { aw := 13, magic := 0#32 }, src := 0x1FFE#64, pix := cells 0x1FFE [1#8, 2#8] } =
      .refused (.pixPastAddressSpace 0x2000) ∧
    pixByte (walking 3#8 1#32 1#32 [7#8, 8#8]) 1 = .ok 8#8 :=
  ⟨⟨rfl, rfl, rfl⟩, rfl, by decide, rfl, (fun ⟨_, h⟩ => by cases h), rfl, rfl, rfl⟩

theorem one_atPixel : one.atPixel (rgb 7 8 9) := ⟨⟨rfl, rfl, rfl⟩, rfl, by decide, rfl⟩

theorem one_walkInvariant : WalkInvariant one where
  validated := by decide
  indexInRange := by decide
  prevFromFirst := by decide
  prevInItsSlot := by decide
  runCapped := by decide
  runHasPrev := by decide
  slotsHoldTheirHash := by decide
  noAlphaInPrev := by decide
  noAlphaInSlots := by decide
  noError := rfl
  headerFirst := by decide
  headerComplete := by decide
  literalOut := by decide
  sizeBound := by decide

theorem one_invariant : Invariant one where
  noBenchMove := rfl
  lengthCounted := by decide
  srcInAddressSpace := by decide
  memoryCanonical := by unfold Memory.wf; decide
  memoryInAddressSpace := by decide
  errorIsACode := by decide
  errorHasNoOutput := by decide
  idleHasNoOutput := by decide
  doneHasOutput := by decide
  walking := fun _ => one_walkInvariant

/-- Also of PixelStepEmitsAtMostSixBytes. -/
theorem witness_FirstPixelIsLiteral : one.atPixel (rgb 7 8 9) ∧ WalkInvariant one ∧ one.pixIdx = 0#64 :=
  ⟨one_atPixel, one_walkInvariant, rfl⟩

/-- EqualPixelExtendsRun: below the cap and at it. -/
theorem witness_EqualPixelExtendsRun :
    (second3 (rgb 1 2 3) (rgb 1 2 3) 61).atPixel (rgb 1 2 3) ∧ (second3 (rgb 1 2 3) (rgb 1 2 3) 61).prevValid = true ∧
    (second3 (rgb 1 2 3) (rgb 1 2 3) 61).prev = rgb 1 2 3 ∧ (second3 (rgb 1 2 3) (rgb 1 2 3) 0).atPixel (rgb 1 2 3) ∧
    (second3 (rgb 1 2 3) (rgb 1 2 3) 0).run ≠ 61#6 :=
  ⟨⟨⟨rfl, rfl, rfl⟩, rfl, by decide, rfl⟩, rfl, rfl, ⟨⟨rfl, rfl, rfl⟩, rfl, by decide, rfl⟩, by decide⟩

theorem witness_StretchOfEqualPixels :
    (second3 (rgb 1 2 3) (rgb 1 2 3) 0).prevValid = true ∧ (second3 (rgb 1 2 3) (rgb 1 2 3) 0).run = 0#6 ∧
    (second3 (rgb 1 2 3) (rgb 1 2 3) 0).pixIdx.toNat + 1 < 2 ^ 64 ∧
    ∀ j < 1, fetchPixel (second3 (rgb 1 2 3) (rgb 1 2 3) 0) ((second3 (rgb 1 2 3) (rgb 1 2 3) 0).pixIdx.toNat + j) =
      .ok (second3 (rgb 1 2 3) (rgb 1 2 3) 0).prev := by
  refine ⟨rfl, rfl, by decide, fun j hj => ?_⟩
  have h : j = 0 := by omega
  subst h; rfl

/-- DifferingPixelFlushesRun: the shortest and the longest run. -/
theorem witness_DifferingPixelFlushesRun :
    (second3 (rgb 5 5 5) (rgb 90 80 70) 1).atPixel (rgb 90 80 70) ∧ (second3 (rgb 5 5 5) (rgb 90 80 70) 62).atPixel (rgb 90 80 70) ∧
    (second3 (rgb 5 5 5) (rgb 90 80 70) 1).prevValid = true ∧ rgb 90 80 70 ≠ (second3 (rgb 5 5 5) (rgb 90 80 70) 1).prev ∧
    1 ≤ (1#6).toNat ∧ (62#6).toNat ≤ 62 :=
  ⟨⟨⟨rfl, rfl, rfl⟩, rfl, by decide, rfl⟩, ⟨⟨rfl, rfl, rfl⟩, rfl, by decide, rfl⟩, rfl, by decide, by decide, by decide⟩

/-- CachedPixelIsIndex: a pixel that is in its slot, of another alpha than PREV. -/
theorem witness_CachedPixelIsIndex :
    ({ second4 (rgba 1 1 1 1) (rgba 100 100 100 255) 0 with
      cache := storePixel State.reset.cache (rgba 100 100 100 255) }).atNewColour (rgba 100 100 100 255) ∧
    lookup (storePixel State.reset.cache (rgba 100 100 100 255)) (hash (rgba 100 100 100 255)) =
      some (rgba 100 100 100 255) :=
  ⟨⟨⟨⟨rfl, rfl, rfl⟩, rfl, by decide, rfl⟩, rfl, by decide, rfl⟩, by decide⟩

/-- SmallDeltaIsDiff: -2 (wrapped), 1 and 0. -/
theorem witness_SmallDeltaIsDiff :
    (second3 (rgb 1 0 7) (rgb 255 1 7) 0).atNewColour (rgb 255 1 7) ∧
    lookup (second3 (rgb 1 0 7) (rgb 255 1 7) 0).cache (hash (rgb 255 1 7)) ≠ some (rgb 255 1 7) ∧
    (rgb 255 1 7).a = (second3 (rgb 1 0 7) (rgb 255 1 7) 0).prev.a ∧ (255#8 - 1#8).toInt = -2 ∧
    (1#8 - 0#8).toInt = 1 ∧ (7#8 - 7#8).toInt = 0 :=
  ⟨⟨⟨⟨rfl, rfl, rfl⟩, rfl, by decide, rfl⟩, rfl, by decide, rfl⟩, by decide, rfl, by decide, by decide, by decide⟩

/-- LumaDeltaIsLuma: dG = -32 with cross deltas -8 and 7 (95 V-LUMA-SEQ, pixel 1), and dG = 31 with 7 and 7. -/
theorem witness_LumaDeltaIsLuma :
    (second3 (rgb 100 100 100) (rgb 60 68 75) 0).atNewColour (rgb 60 68 75) ∧
    lookup (second3 (rgb 100 100 100) (rgb 60 68 75) 0).cache (hash (rgb 60 68 75)) ≠ some (rgb 60 68 75) ∧
    diffFits (rgb 60 68 75) (rgb 100 100 100) = false ∧ (68#8 - 100#8).toInt = -32 ∧
    ((60#8 - 100#8) - (68#8 - 100#8)).toInt = -8 ∧ ((75#8 - 100#8) - (68#8 - 100#8)).toInt = 7 ∧
    (second3 (rgb 0 0 0) (rgb 38 31 38) 0).atNewColour (rgb 38 31 38) ∧ (31#8 - 0#8).toInt = 31 :=
  ⟨⟨⟨⟨rfl, rfl, rfl⟩, rfl, by decide, rfl⟩, rfl, by decide, rfl⟩, by decide, by decide, by decide, by decide, by decide,
    ⟨⟨⟨rfl, rfl, rfl⟩, rfl, by decide, rfl⟩, rfl, by decide, rfl⟩, by decide⟩

theorem witness_AlphaChangeForcesLiteral :
    (second4 (rgba 1 1 1 1) (rgba 1 1 1 2) 0).atNewColour (rgba 1 1 1 2) ∧
    (second4 (rgba 1 1 1 1) (rgba 1 1 1 2) 0).channels = 4#8 ∧
    lookup (second4 (rgba 1 1 1 1) (rgba 1 1 1 2) 0).cache (hash (rgba 1 1 1 2)) ≠ some (rgba 1 1 1 2) ∧
    (rgba 1 1 1 2).a ≠ (second4 (rgba 1 1 1 1) (rgba 1 1 1 2) 0).prev.a :=
  ⟨⟨⟨⟨rfl, rfl, rfl⟩, rfl, by decide, rfl⟩, rfl, by decide, rfl⟩, rfl, by decide, by decide⟩

/-- OtherwiseLiteral, and the emptiness of its three "none of" premises. -/
theorem witness_OtherwiseLiteral :
    fresh3.atNewColour (rgb 200 100 50) ∧ fresh3.channels = 3#8 ∧
    lookup fresh3.cache (hash (rgb 200 100 50)) ≠ some (rgb 200 100 50) ∧
    diffFits (rgb 200 100 50) fresh3.prev = false ∧ lumaFits (rgb 200 100 50) fresh3.prev = false :=
  ⟨⟨⟨⟨rfl, rfl, rfl⟩, rfl, by decide, rfl⟩, rfl, by decide, rfl⟩, rfl, by decide, by decide, by decide⟩

/-- FinishFlushesAndEnds: with and without a pending run. -/
theorem witness_FinishFlushesAndEnds :
    ({ second3 (rgb 1 2 3) (rgb 1 2 3) 1 with pixIdx := 2#64 }).undisturbed ∧
    ({ second3 (rgb 1 2 3) (rgb 1 2 3) 1 with pixIdx := 2#64 }).phase = .walk ∧
    (2#64).toNat = (second3 (rgb 1 2 3) (rgb 1 2 3) 1).pixels ∧ (0#6).toNat ≤ 62 ∧ (62#6).toNat ≤ 62 :=
  ⟨⟨rfl, rfl, rfl⟩, rfl, by decide, by decide, by decide⟩

/-- SelectorNeverPicksWastefulChunk: each of its premises. -/
theorem witness_SelectorNeverPicksWastefulChunk :
    one.prevValid = false ∧ one.run = 0#6 ∧ Instr.rgb 200#8 100#8 50#8 ∈ selected fresh3 (rgb 200 100 50) ∧
    Instr.rgba 1#8 1#8 1#8 2#8 ∈ selected (second4 (rgba 1 1 1 1) (rgba 1 1 1 2) 0) (rgba 1 1 1 2) ∧
    Instr.luma 0#6 0#4 15#4 ∈ selected (second3 (rgb 100 100 100) (rgb 60 68 75) 0) (rgb 60 68 75) ∧
    Instr.index 22#6 ∈ selected { fresh3 with prev := rgb 0 0 0 } (rgb 10 10 10) ∧
    lookup { fresh3 with prev := rgb 0 0 0 }.cache (hash (rgb 10 10 10)) = some (rgb 10 10 10) ∧
    fresh3.prevValid = true ∧ diffFits (rgb 11 11 11) fresh3.prev = true ∧ lumaFits (rgb 20 20 20) fresh3.prev = true ∧
    (rgb 11 11 11).a = fresh3.prev.a := by decide

/-- Its last clause: a RUN of 62, and at once a RUN of 1 at FINISH. -/
theorem witness_SelectorNeverPicksWastefulChunk_runs :
    chunksFrom 2 ({ (walking 3#8 2#32 1#32 [1#8, 2#8, 3#8, 1#8, 2#8, 3#8]).remember (rgb 1 2 3) with run := 61#6 }) =
      [.run 61#6, .run 0#6] := by rfl

/-- StepRunsTheDecodedOperation: its three clauses. -/
theorem witness_StepRunsTheDecodedOperation :
    decodeOp State.reset.config.magic (.chunk [0x16#8]) = .ok (.index 22#6) ∧ (Instr.index 22#6).wf = true ∧
    ({ State.reset with moves := [.op (.chunk [0x16#8])] }).sinkTick.sinkReady = true ∧
    decodeOp State.reset.config.magic (tableOp 32 1) = .ok .start ∧
    decodeOp State.reset.config.magic (tableOp 8 0x3F) = .ok (.index 63#6) ∧
    State.reset.undisturbed ∧ State.reset.phase ≠ .walk ∧ one.undisturbed ∧ one.pixIdx.toNat < one.pixels ∧
    (1#64).toNat = ({ one with pixIdx := 1#64 }).pixels :=
  ⟨rfl, rfl, rfl, rfl, rfl, ⟨rfl, rfl, rfl⟩, by decide, ⟨rfl, rfl, rfl⟩, by decide, by decide⟩

/-- DescriptorReadsBackWhatWasWritten: a write and a read back of SRC's high word, AW = 40. -/
theorem witness_DescriptorReadsBackWhatWasWritten :
    State.reset.phase ≠ .walk ∧ 0x24 ∈ [0x0C, 0x10, 0x14, 0x18, 0x20, 0x24] ∧
    (after (after { State.reset with
      config := { aw := 40, magic := 0#32 }
      moves := [.write .word 0x24 0xFFFFFFFF#32, .read .word 0x24] })).busData = 0xFF#32 := by decide

/-- DescriptorIsTheHostsAlone: each clause. -/
theorem witness_DescriptorIsTheHostsAlone :
    State.reset.phase ≠ .walk ∧ regAt 0x0C = some .width ∧ Reg.width ≠ .ctrl ∧ one.phase = .walk ∧ 0x2C % 4 = 0 ∧
    step { State.reset with moves := [.wait] } = .next State.reset ∧ Move.wait ≠ .reset ∧
    ∀ size offset w, Move.wait ≠ .write size offset w :=
  ⟨by decide, rfl, by decide, rfl, rfl, rfl, by decide, fun _ _ _ h => by cases h⟩

/-- StatusShowsThePhase, RegisterMapReadsAndWrites: an access of each kind is a state of the model. -/
theorem witness_register_accesses :
    ({ one with moves := [.read .word 0x04] }).moves = [.read .word 0x04] ∧
    ({ one with moves := [.write .word 0x04 1#32] }).moves = [.write .word 0x04 1#32] ∧ 0x30 % 4 = 0 ∧
    0x1C ∉ [0x00, 0x0C, 0x10, 0x14, 0x18, 0x20, 0x24] ∧ State.reset.phase ≠ .walk ∧
    (after { one with moves := [.read .word 0x28] }).busData = 14#32 ∧
    (after { one with moves := [.read .word 0x04] }).busData = 1#32 := by decide

theorem witness_NarrowRegisterAccessIsRefused : AccessSize.half ≠ .word ∧ 0x0E % 4 ≠ 0 := by decide

theorem witness_HardwareResetClearsTheBlock :
    ({ one with moves := [.reset] }).moves = [.reset] ∧ (after { one with moves := [.reset] }).phase = .idle := by decide

/-- PixelMemoryIsTheHostsAlone: at the edges of the buffer and of the address space. -/
theorem witness_PixelMemoryIsTheHostsAlone :
    2 ^ one.config.aw ≤ 2 ^ 64 ∧ 0x1002 < 2 ^ one.config.aw ∧ one.phase = .walk ∧ one.src.toNat ≤ 0x1002 ∧
    0x1002 < one.src.toNat + one.bufferLength ∧ one.src.toNat + one.bufferLength ≤ 0x1003 ∧
    (after { one with moves := [.pixWrite 0x1003 5#8] }).pix.read 0x1003 = some 5#8 := by decide

/-- OutputOnlyGrows, PixelIndexAdvancesByOne, StepKeepsMemoryFormAndParameters: a step that is taken in WALK, and one
outside it. -/
theorem witness_steps_are_taken :
    (∃ t, step one = .next t) ∧ one.moves.head? ≠ some .reset ∧ one.phase = .walk ∧ one.pix.wf ∧
    step State.reset = .next State.reset ∧ State.reset.phase ≠ .walk ∧
    (∀ m ∈ State.reset.moves.head?, m ≠ .reset ∧ m.isCommand = false) ∧
    (Move.write .word 0x00 0xFFFFFFFE#32).isCommand = false ∧ (Move.write .word 0x00 1#32).isCommand = true :=
  ⟨⟨_, rfl⟩, by decide, rfl, by unfold Memory.wf; decide, rfl, by decide, by decide, by decide, by decide⟩

/-- ErrorCodeChangesOnlyWithStart: by a CTRL write, by a bench START, and by a reset. -/
theorem witness_ErrorCodeChangesOnlyWithStart :
    (∃ t, step (State.reset.withFetchWord 32 1) = .next t ∧ t.err ≠ State.reset.err) ∧
    (∃ t, step { State.reset with moves := [.op (.ctrl 1#32)] } = .next t ∧ t.err ≠ State.reset.err) ∧
    ∃ t, step { State.reset with err := 1#8, phase := .done, moves := [.reset] } = .next t ∧ t.err ≠ 1#8 :=
  ⟨⟨_, rfl, by decide⟩, ⟨_, rfl, by decide⟩, ⟨_, rfl, by decide⟩⟩

/-- A valid START that is pending while the sink is not ready. -/
def startWaits : State :=
  { image 3#8 1#32 1#32 [7#8, 8#8, 9#8] with moves := [.write .word 0x00 1#32], sinkReady := false }

/-- BackPressureOnlyDelays: its premises, for the encoder's step, a pending START and a bench move. -/
theorem witness_BackPressureOnlyDelays :
    (∃ t, step { one with sinkReady := false } = .next t) ∧ ({ one with sinkReady := false }).sinkTick.sinkReady = false ∧
    ({ one with sinkReady := false }).emitsNext ∧ startWaits.emitsNext ∧ startWaits.sinkTick.sinkReady = false ∧
    startWaits.sinkLevels = [] ∧ ({ one with moves := [.op (.chunk [0x16#8])] }).emitsNext ∧
    one.phase = .walk ∧ encoderEmits { one with moves := [.wait], sinkReady := false } = true :=
  ⟨⟨_, rfl⟩, rfl, .inl ⟨rfl, rfl, by decide⟩, .inr (.inl ⟨1#32, [], rfl, by decide, by decide, by decide⟩), rfl, rfl,
    .inr (.inr ⟨_, _, [], rfl, rfl, rfl⟩), rfl, by decide⟩

/-- 70 R237, log 4: a pending START waits whole. -/
theorem test_start_waits : step startWaits = .next startWaits := by rfl

theorem witness_StepKeepsTheInvariant : Invariant one ∧ ∃ t, step one = .next t := ⟨one_invariant, _, rfl⟩

theorem witness_StepKeepsReaderInLockstep :
    Invariant one ∧ Lockstep one ∧
      ∃ t, step one = .next t ∧ t.phase = .walk :=
  ⟨one_invariant, ⟨Reader.initial, by decide, by decide, by decide, by decide, fun j hj => absurd hj (by simp [one, walking, image, State.reset])⟩,
    _, rfl, rfl⟩

/-- A one-pixel image with its START pending. -/
def pending : State := { image 3#8 1#32 1#32 [7#8, 8#8, 9#8] with moves := [.write .word 0x00 1#32] }

theorem pending_readable : pending.pixReadable := by
  unfold State.pixReadable; decide

/-- Also of RunComputesEncode and RunDependsOnDescriptorAndPixelsAlone (with itself). -/
theorem witness_EncodeReachesDoneInExactlyItsSteps :
    pending.startPending ∧ pending.phase ≠ .walk ∧ pending.validation = 0#8 ∧ pending.pixReadable ∧
    ({ State.reset with moves := [.write .word 0x00 1#32] }).startPending ∧ State.reset.validation ≠ 0#8 :=
  ⟨⟨rfl, rfl, rfl⟩, by decide, by decide, pending_readable, ⟨rfl, rfl, rfl⟩, by decide⟩

theorem witness_RunComputesEncode : ∃ t, encodeFrom { pending with moves := [] } = .next t := ⟨_, rfl⟩

/-- RunDependsOnDescriptorAndPixelsAlone: two blocks that differ in what they did before. -/
theorem witness_RunDependsOnDescriptorAndPixelsAlone :
    pending.startPending ∧
    ({ pending with phase := .done, prev := rgb 7 8 9, prevValid := true, run := 5#6, out := [1#8] }).startPending :=
  ⟨⟨rfl, rfl, rfl⟩, ⟨rfl, rfl, rfl⟩⟩

/-- The descriptor of one 3-channel pixel. -/
def oneDescriptor : Descriptor :=
  { src := 0x1000#64, width := 1#32, height := 1#32, channels := 3#8, colorspace := 0#8 }

/-- LengthLaw: an encode that succeeds and one that fails. -/
theorem witness_LengthLaw :
    (∃ s, encodeFrom (prepared Config.standard oneDescriptor (cells 0x1000 [7#8, 8#8, 9#8])) = .next s ∧ s.err = 0#8) ∧
    ∃ s, encodeFrom (prepared Config.standard { oneDescriptor with src := 0#64 } []) = .next s ∧ s.err ≠ 0#8 :=
  ⟨⟨_, rfl, rfl⟩, ⟨_, rfl, by decide⟩⟩

/-- OutputSizeBounds, DecodingTheOutputGivesThePixels (95 V-SEL-1). -/
theorem witness_encodeImage :
    encodeImage Config.standard oneDescriptor (cells 0x1000 [7#8, 8#8, 9#8]) =
      .next (0#8, headerBytes 0x716F6966#32 1#32 1#32 3#8 0#8 ++ [0xFE#8, 7#8, 8#8, 9#8]) := by rfl

/-- UniformImageIsLiteralAndRun: two equal pixels. -/
theorem witness_UniformImageIsLiteralAndRun :
    (prepared Config.standard { oneDescriptor with width := 2#32 } (cells 0x1000 [1#8, 2#8, 3#8, 1#8, 2#8, 3#8])).validation =
      0#8 ∧
    ∀ j < 2, fetchPixel
      (prepared Config.standard { oneDescriptor with width := 2#32 } (cells 0x1000 [1#8, 2#8, 3#8, 1#8, 2#8, 3#8])) j =
        .ok (rgb 1 2 3) := by
  refine ⟨by decide, fun j hj => ?_⟩
  rcases j with _ | _ | j
  · rfl
  · rfl
  · omega

end Sys2Proof.Tests
end

/-! The register map of the host (10_state sections 4 and 10): what a host access to REG does in a step, what every
register reads, what a write to each of them changes, and the obligations about them. -/

namespace Sys2Proof.Machine

/-! The offsets of the register map (10 R36). -/

/-- The byte offset of a register. -/
def Reg.offset : Reg → Nat
  | .ctrl => 0x00
  | .status => 0x04
  | .err => 0x08
  | .width => 0x0C
  | .height => 0x10
  | .channels => 0x14
  | .colorspace => 0x18
  | .srcLow => 0x20
  | .srcHigh => 0x24
  | .outLen0 => 0x28
  | .outLen1 => 0x2C
  | .outLen2 => 0x30

variable {s : State} {offset : Nat} {w : Word} {rest : List Move} {r : Reg}

@[simp] theorem regAt_offset (r : Reg) : regAt r.offset = some r := by
  cases r <;> rfl

theorem offset_eq_of_regAt (h : regAt offset = some r) : offset = r.offset := by
  unfold regAt at h
  split at h <;> cases h <;> rfl

theorem regAt_ne_none_of_listed :
    ∀ o ∈ [0x04, 0x08, 0x0C, 0x10, 0x14, 0x18, 0x20, 0x24, 0x28, 0x2C, 0x30], regAt o ≠ none := by
  decide

theorem Reg.offset_aligned (r : Reg) : r.offset % 4 = 0 := by
  cases r <;> rfl

/-! What a host access to REG does in a step. -/

/-- A pending move is taken in the state in which the sink has presented its level. -/
theorem step_of_move {m : Move} (h : s.moves = m :: rest) :
    step s = doMove m s.sinkTick { s.sinkTick with moves := rest } := by
  simp only [step, nextMove, State.sinkTick_moves, h]

/-- What a register reads does not depend on the sink or on the moves to come. -/
theorem regRead_sinkTick (r : Reg) : regRead { s.sinkTick with moves := rest } r = regRead s r := by
  cases r <;> simp [regRead, statusWord]

@[simp] theorem busRead_offset (r : Reg) : busRead s r.offset = regRead s r := by
  simp [busRead]

theorem busRead_of_unlisted (h : regAt offset = none) : busRead s offset = 0#32 := by
  simp [busRead, h]

theorem busRead_sinkTick : busRead { s.sinkTick with moves := rest } offset = busRead s offset := by
  cases hr : regAt offset with
  | none => rw [busRead_of_unlisted hr, busRead_of_unlisted hr]
  | some r =>
    obtain rfl := offset_eq_of_regAt hr
    rw [busRead_offset, busRead_offset, regRead_sinkTick]

/-- An aligned read answers in every phase and changes nothing else. -/
theorem step_read (h : s.moves = .read .word offset :: rest) (ha : offset % 4 = 0) :
    step s = .next { s.sinkTick with moves := rest, busData := busRead s offset } := by
  rw [step_of_move h, ← busRead_sinkTick (rest := rest)]
  simp [doMove, hostRead, ha]

/-- A write to a register other than CTRL is `regWrite`. -/
theorem step_write_reg (h : s.moves = .write .word offset w :: rest) (hr : regAt offset = some r) (hc : r ≠ .ctrl) :
    step s = .next (regWrite { s.sinkTick with moves := rest } r w) := by
  have ha : offset % 4 = 0 := offset_eq_of_regAt hr ▸ r.offset_aligned
  rw [step_of_move h]
  cases r with
  | ctrl => exact absurd rfl hc
  | _ => simp [doMove, hostWrite, ha, hr]

theorem step_write_unlisted (h : s.moves = .write .word offset w :: rest) (ha : offset % 4 = 0)
    (hr : regAt offset = none) : step s = .next { s.sinkTick with moves := rest } := by
  rw [step_of_move h]
  simp [doMove, hostWrite, ha, hr]

/-- A write to CTRL with bit 0 = 0 is no command (10 R25). -/
theorem step_write_ctrl_of_clear (h : s.moves = .write .word 0x00 w :: rest) (hb : w.getLsbD 0 = false) :
    step s = .next { s.sinkTick with moves := rest } := by
  rw [step_of_move h]
  have hb' : w[0] = false := hb
  simp [doMove, hostWrite, regAt, hb']

/-- A write to CTRL with bit 0 = 1 is the START operation, which waits for the sink if it emits (10 R25; 40 R100). -/
theorem step_write_ctrl_of_set (h : s.moves = .write .word 0x00 w :: rest) (hb : w.getLsbD 0 = true) :
    step s = offered (emitsNow .start { s.sinkTick with moves := rest }) s.sinkTick
      (exec .start { s.sinkTick with moves := rest }) := by
  rw [step_of_move h]
  simp [doMove, hostWrite, regAt, hb, command, decodeOp, decodeCtrl]

/-- A START that is ignored or fails its validation emits nothing, so it never waits for the sink. -/
theorem emitsNow_start_eq_false (h : s.phase = .walk ∨ s.validation ≠ 0#8) : emitsNow .start s = false := by
  rcases h with h | h <;> simp [emitsNow, h]

/-- A START in WALK is ignored, whether the sink is ready or not (40 R100). -/
theorem step_write_ctrl_of_walk (h : s.moves = .write .word 0x00 w :: rest) (hw : s.phase = .walk) :
    step s = .next { s.sinkTick with moves := rest } := by
  have hp : ({ s.sinkTick with moves := rest } : State).phase = .walk := by simp [hw]
  cases hb : w.getLsbD 0 with
  | false => exact step_write_ctrl_of_clear h hb
  | true =>
    rw [step_write_ctrl_of_set h hb, emitsNow_start_eq_false (.inl hp), offered_silent]
    exact execStart_of_walk _ hp

/-! STATUS (10 R23). -/

theorem statusWord_toNat :
    (statusWord s).toNat = if s.phase = .walk then 1 else if s.phase = .done then 2 else 0 := by
  unfold statusWord
  cases s.phase <;> rfl

/-- Bit 0 of STATUS is BUSY (10 R23). -/
theorem statusWord_bit0 : (statusWord s).getLsbD 0 = true ↔ s.phase = .walk := by
  unfold statusWord
  cases s.phase <;> decide

/-- Bit 1 of STATUS is DONE (10 R23). -/
theorem statusWord_bit1 : (statusWord s).getLsbD 1 = true ↔ s.phase = .done := by
  unfold statusWord
  cases s.phase <;> decide

theorem statusWord_high {i : Nat} (h : 2 ≤ i) : (statusWord s).getLsbD i = false := by
  have hlt : (statusWord s).toNat < 2 ^ 2 := by
    rw [statusWord_toNat]
    split_ifs <;> decide
  exact Nat.testBit_lt_two_pow (hlt.trans_le (Nat.pow_le_pow_right (by decide) h))

/-! What a write to each register changes. -/

theorem regWrite_of_walk (h : s.phase = .walk) : regWrite s r w = s := by
  simp [regWrite, h]

theorem regWrite_width (h : s.phase ≠ .walk) : regWrite s .width w = { s with width := w } := by
  simp [regWrite, h]

theorem regWrite_height (h : s.phase ≠ .walk) : regWrite s .height w = { s with height := w } := by
  simp [regWrite, h]

theorem regWrite_channels (h : s.phase ≠ .walk) :
    regWrite s .channels w = { s with channels := w.setWidth 8 } := by
  simp [regWrite, h]

theorem regWrite_colorspace (h : s.phase ≠ .walk) :
    regWrite s .colorspace w = { s with colorspace := w.setWidth 8 } := by
  simp [regWrite, h]

theorem regWrite_srcLow (h : s.phase ≠ .walk) :
    regWrite s .srcLow w = { s with src := truncAw s.config (s.src.extractLsb' 32 32 ++ w) } := by
  simp [regWrite, h]

theorem regWrite_srcHigh (h : s.phase ≠ .walk) :
    regWrite s .srcHigh w = { s with src := truncAw s.config (w ++ s.src.extractLsb' 0 32) } := by
  simp [regWrite, h]

/-- CTRL, STATUS, ERR and OUT_LEN hold nothing that `regWrite` writes. -/
theorem regWrite_of_not_descriptor (h : r.offset ∉ [0x0C, 0x10, 0x14, 0x18, 0x20, 0x24]) :
    regWrite s r w = s := by
  cases r with
  | ctrl | status | err | outLen0 | outLen1 | outLen2 => simp [regWrite]
  | width | height | channels | colorspace | srcLow | srcHigh => simp [Reg.offset] at h

@[simp] theorem regWrite_moves : (regWrite s r w).moves = s.moves := by
  unfold regWrite
  split_ifs
  · rfl
  · cases r <;> rfl

/-! The two words of SRC, of which AW bits exist (10 R21, R36). -/

theorem truncAw_toNat (c : Config) (v : BitVec 64) : (truncAw c v).toNat = v.toNat % 2 ^ c.aw := by
  have : v.toNat % 2 ^ c.aw < 2 ^ 64 := (Nat.mod_le ..).trans_lt v.isLt
  rw [truncAw, BitVec.toNat_ofNat, Nat.mod_eq_of_lt this]

theorem words_toNat (hi lo : Word) : (hi ++ lo).toNat = hi.toNat * 2 ^ 32 + lo.toNat := by
  rw [BitVec.toNat_append, ← Nat.shiftLeft_add_eq_or_of_lt lo.isLt, Nat.shiftLeft_eq]

theorem lowWord_toNat (v : BitVec 64) : (v.extractLsb' 0 32).toNat = v.toNat % 2 ^ 32 := by
  simp

theorem highWord_toNat (v : BitVec 64) : (v.extractLsb' 32 32).toNat = v.toNat / 2 ^ 32 := by
  rw [BitVec.extractLsb'_toNat, Nat.shiftRight_eq_div_pow]
  omega

/-- The cut to `a` bits leaves of the low word its own `a` low bits, whatever the high word is. -/
theorem lowWord_of_cut (a hi : Nat) {lo : Nat} (h : lo < 2 ^ 32) :
    (hi * 2 ^ 32 + lo) % 2 ^ a % 2 ^ 32 = lo % 2 ^ a := by
  have hlo : (hi * 2 ^ 32 + lo) % 2 ^ 32 = lo := by omega
  rcases Nat.le_total a 32 with ha | ha
  · have hd : 2 ^ a ∣ 2 ^ 32 := Nat.pow_dvd_pow 2 ha
    have hcut : (hi * 2 ^ 32 + lo) % 2 ^ a < 2 ^ 32 :=
      (Nat.mod_lt _ (by positivity)).trans_le (Nat.le_of_dvd (by positivity) hd)
    rw [Nat.mod_eq_of_lt hcut, ← Nat.mod_mod_of_dvd _ hd, hlo]
  · have hd : 2 ^ 32 ∣ 2 ^ a := Nat.pow_dvd_pow 2 ha
    rw [Nat.mod_mod_of_dvd _ hd, hlo, Nat.mod_eq_of_lt (h.trans_le (Nat.le_of_dvd (by positivity) hd))]

/-- What the cut to `a` bits leaves of the high word does not depend on the low word. -/
theorem highWord_of_cut (a hi : Nat) {lo : Nat} (h : lo < 2 ^ 32) :
    (hi * 2 ^ 32 + lo) % 2 ^ a / 2 ^ 32 = hi * 2 ^ 32 % 2 ^ a / 2 ^ 32 := by
  rcases Nat.le_total a 32 with ha | ha
  · have hcut : ∀ n, n % 2 ^ a / 2 ^ 32 = 0 := fun n =>
      Nat.div_eq_of_lt ((Nat.mod_lt _ (by positivity)).trans_le (Nat.pow_le_pow_right (by decide) ha))
    rw [hcut, hcut]
  · obtain ⟨k, rfl⟩ := Nat.exists_eq_add_of_le ha
    have hhi : (hi * 2 ^ 32 + lo) / 2 ^ 32 = hi * 2 ^ 32 / 2 ^ 32 := by omega
    rw [Nat.pow_add, Nat.mod_mul_right_div_self, Nat.mod_mul_right_div_self, hhi]

/-! A register of one byte (10 R36). -/

theorem byteWord_toNat (b : Byte) : (b.setWidth 32).toNat = b.toNat :=
  BitVec.toNat_setWidth_of_le (by decide)

theorem lowByte_toNat (w : Word) : ((w.setWidth 8).setWidth 32).toNat = w.toNat % 256 := by
  rw [byteWord_toNat, BitVec.toNat_setWidth]

/-! A descriptor word written and read back. -/

/-- A write and a read of one register take two steps, and answer what the register reads once it is written. -/
theorem step_write_read {n : Nat} (h : s.moves = .write .word offset w :: .read .word offset :: rest)
    (hr : regAt offset = some r) (hc : r ≠ .ctrl) (hp : s.phase ≠ .walk)
    (hv : ∀ u : State, u.phase ≠ .walk → u.config = s.config → (regRead (regWrite u r w) r).toNat = n) :
    ∃ t u, step s = .next t ∧ step t = .next u ∧ u.busData.toNat = n := by
  have ha : offset % 4 = 0 := offset_eq_of_regAt hr ▸ r.offset_aligned
  refine ⟨_, _, step_write_reg h hr hc, step_read (regWrite_moves ..) ha, ?_⟩
  simpa [busRead, hr] using
    hv { s.sinkTick with moves := .read .word offset :: rest } (by simpa using hp) (by simp)

theorem regRead_srcLow_regWrite (h : s.phase ≠ .walk) :
    (regRead (regWrite s .srcLow w) .srcLow).toNat = w.toNat % 2 ^ s.config.aw := by
  simp only [regWrite_srcLow h, regRead]
  rw [lowWord_toNat, truncAw_toNat, words_toNat, lowWord_of_cut _ _ w.isLt]

theorem regRead_srcHigh_regWrite (h : s.phase ≠ .walk) :
    (regRead (regWrite s .srcHigh w) .srcHigh).toNat = w.toNat * 2 ^ 32 % 2 ^ s.config.aw / 2 ^ 32 := by
  simp only [regWrite_srcHigh h, regRead]
  rw [highWord_toNat, truncAw_toNat, words_toNat, highWord_of_cut _ _ (BitVec.isLt _)]

/-- Settles O39, register by register: the write, then the read of what it left. -/
theorem descriptorReadsBackWhatWasWritten : Obligations.DescriptorReadsBackWhatWasWritten := by
  unfold Obligations.DescriptorReadsBackWhatWasWritten
  intro s offset w rest hp hm ho
  simp only [List.mem_cons, List.not_mem_nil, or_false] at ho
  rcases ho with rfl | rfl | rfl | rfl | rfl | rfl
  · exact step_write_read hm rfl (by decide) hp fun u hu _ => by simp [regWrite_width hu, regRead]
  · exact step_write_read hm rfl (by decide) hp fun u hu _ => by simp [regWrite_height hu, regRead]
  · exact step_write_read hm rfl (by decide) hp fun u hu _ => by
      rw [regWrite_channels hu]; exact lowByte_toNat w
  · exact step_write_read hm rfl (by decide) hp fun u hu _ => by
      rw [regWrite_colorspace hu]; exact lowByte_toNat w
  · exact step_write_read hm rfl (by decide) hp fun u hu he => by simpa [he] using regRead_srcLow_regWrite hu
  · exact step_write_read hm rfl (by decide) hp fun u hu he => by simpa [he] using regRead_srcHigh_regWrite hu

/-! Who writes a descriptor register (10 R24). -/

/-- SRC, WIDTH, HEIGHT, CHANNELS and COLORSPACE of `t` are those of `s`. -/
def SameDescriptor (s t : State) : Prop :=
  t.src = s.src ∧ t.width = s.width ∧ t.height = s.height ∧ t.channels = s.channels ∧ t.colorspace = s.colorspace

theorem encoderStep_keeps_descriptor {t : State} (h : encoderStep s = .next t) : SameDescriptor s t := by
  rcases encoderStep_cases h with rfl | ⟨-, -, p, -, rfl⟩ | ⟨-, -, rfl⟩ <;> simp [SameDescriptor]

theorem exec_keeps_descriptor {i : Instr} {t : State} (h : exec i s = .next t) : SameDescriptor s t := by
  rcases exec_cases h with ⟨-, bs, rfl⟩ | ⟨-, h⟩
  · simp [SameDescriptor]
  · rcases execStart_cases h with ⟨-, rfl⟩ | ⟨-, -, rfl⟩ | ⟨-, -, rfl⟩ <;> simp [SameDescriptor]

/-- A step changes the descriptor by a host write or a reset only. -/
theorem step_keeps_descriptor {t : State} (h : step s = .next t)
    (hm : ∀ m ∈ s.moves.head?, m ≠ .reset ∧ ∀ size offset w, m ≠ .write size offset w) : SameDescriptor s t := by
  cases step_cases h with
  | encoder rest _ h => simpa [SameDescriptor] using encoderStep_keeps_descriptor h
  | commandWaits m rest _ _ _ h => simp [SameDescriptor, h]
  | command m rest i _ _ _ _ h => simpa [SameDescriptor] using exec_keeps_descriptor h
  | regWrite offset w rest r pending => exact absurd rfl ((hm (.write .word offset w) (by simp [pending])).2 _ _ _)
  | ignoredWrite offset w rest _ h => simp [SameDescriptor, h]
  | read offset rest _ h => simp [SameDescriptor, h]
  | pixWrite a v rest _ _ _ h => simp [SameDescriptor, h]
  | reset rest pending => exact absurd rfl (hm .reset (by simp [pending])).1

/-- In WALK every aligned write to REG is ignored (10 R24; 40 R100). -/
theorem step_write_of_walk (h : s.moves = .write .word offset w :: rest) (ha : offset % 4 = 0)
    (hw : s.phase = .walk) : step s = .next { s.sinkTick with moves := rest } := by
  cases hr : regAt offset with
  | none => exact step_write_unlisted h ha hr
  | some r =>
    by_cases hc : r = .ctrl
    · subst hc
      obtain rfl : offset = 0 := offset_eq_of_regAt hr
      exact step_write_ctrl_of_walk h hw
    · rw [step_write_reg h hr hc, regWrite_of_walk (by simpa using hw)]

/-- Settles O40, from the rule of each host access and the frame of every step that is none. -/
theorem descriptorIsTheHostsAlone : Obligations.DescriptorIsTheHostsAlone := by
  unfold Obligations.DescriptorIsTheHostsAlone
  exact ⟨fun _ _ _ _ _ _ hm hr hc => step_write_reg hm hr hc, fun _ _ _ _ hw hm ha => step_write_of_walk hm ha hw,
    fun _ _ _ hm ha => step_read hm ha, fun _ _ h hm => step_keeps_descriptor h hm⟩

/-! The whole register map (10 R36). -/

/-- The top word of OUT_LEN holds the three bits above bit 63 (10 R27, R36). -/
theorem regRead_outLen2_toNat : (regRead s .outLen2).toNat = s.outLen.toNat / 2 ^ 64 := by
  have hlt : s.outLen.toNat / 2 ^ 64 < 2 ^ 3 := Nat.div_lt_of_lt_mul s.outLen.isLt
  simp only [regRead, BitVec.toNat_setWidth, BitVec.extractLsb'_toNat, Nat.shiftRight_eq_div_pow]
  rw [Nat.mod_eq_of_lt hlt, Nat.mod_eq_of_lt (hlt.trans (by decide))]

/-- A write to an aligned offset that is read-only or not listed is ignored in every phase. -/
theorem step_write_of_readOnly (h : s.moves = .write .word offset w :: rest) (ha : offset % 4 = 0)
    (ho : offset ∉ [0x00, 0x0C, 0x10, 0x14, 0x18, 0x20, 0x24]) :
    step s = .next { s.sinkTick with moves := rest } := by
  cases hr : regAt offset with
  | none => exact step_write_unlisted h ha hr
  | some r =>
    obtain rfl := offset_eq_of_regAt hr
    obtain ⟨hctrl, hdesc⟩ := not_or.1 (mt List.mem_cons.2 ho)
    have hc : r ≠ .ctrl := by rintro rfl; exact hctrl rfl
    rw [step_write_reg h hr hc, regWrite_of_not_descriptor hdesc]

/-- A write to the low word of SRC keeps the high word, as far as the AW bits reach. -/
theorem step_write_srcLow (h : s.moves = .write .word 0x20 w :: rest) (hp : s.phase ≠ .walk) :
    ∃ v : BitVec 64, step s = .next { s.sinkTick with moves := rest, src := v } ∧
      v.toNat = (s.src.toNat / 2 ^ 32 * 2 ^ 32 + w.toNat) % 2 ^ s.config.aw := by
  refine ⟨truncAw s.sinkTick.config (s.sinkTick.src.extractLsb' 32 32 ++ w), ?_, ?_⟩
  · rw [step_write_reg h rfl (by decide), regWrite_srcLow (by simpa using hp)]
  · rw [State.sinkTick_config, State.sinkTick_src, truncAw_toNat, words_toNat, highWord_toNat]

/-- A write to the high word of SRC keeps the low word, as far as the AW bits reach. -/
theorem step_write_srcHigh (h : s.moves = .write .word 0x24 w :: rest) (hp : s.phase ≠ .walk) :
    ∃ v : BitVec 64, step s = .next { s.sinkTick with moves := rest, src := v } ∧
      v.toNat = (w.toNat * 2 ^ 32 + s.src.toNat % 2 ^ 32) % 2 ^ s.config.aw := by
  refine ⟨truncAw s.sinkTick.config (w ++ s.sinkTick.src.extractLsb' 0 32), ?_, ?_⟩
  · rw [step_write_reg h rfl (by decide), regWrite_srcHigh (by simpa using hp)]
  · rw [State.sinkTick_config, State.sinkTick_src, truncAw_toNat, words_toNat, lowWord_toNat]

/-- Settles O42: a read by the register its offset names, a write by the rule of its register. -/
theorem registerMapReadsAndWrites : Obligations.RegisterMapReadsAndWrites := by
  unfold Obligations.RegisterMapReadsAndWrites
  refine ⟨fun s offset rest hm ha => ?_, fun s offset w rest hm ha ho => step_write_of_readOnly hm ha ho,
    fun s w rest hp => ?_⟩
  · refine ⟨_, step_read hm ha, rfl, ?_⟩
    cases hr : regAt offset with
    | none =>
      have ho := mt (regAt_ne_none_of_listed offset) (not_not.2 hr)
      simp only [List.mem_cons, List.not_mem_nil, or_false, not_or] at ho
      simp [busRead_of_unlisted hr, ho]
    | some r =>
      obtain rfl := offset_eq_of_regAt hr
      simp only [busRead_offset]
      cases r with
      | ctrl => rfl
      | status => exact statusWord_toNat
      | err | channels | colorspace => exact byteWord_toNat _
      | width | height => rfl
      | srcLow => exact lowWord_toNat s.src
      | srcHigh => exact highWord_toNat s.src
      | outLen0 => simp [regRead, Reg.offset]
      | outLen1 => simp [regRead, Reg.offset, Nat.shiftRight_eq_div_pow]
      | outLen2 => exact regRead_outLen2_toNat
  · have hp' : ({ s.sinkTick with moves := rest } : State).phase ≠ .walk := by simpa using hp
    refine ⟨fun hm => ?_, fun hm => ?_, fun hm => ?_, fun hm => ?_, fun hm => step_write_srcLow hm hp,
      fun hm => step_write_srcHigh hm hp⟩
    · rw [step_write_reg hm rfl (by decide), regWrite_width hp']
    · rw [step_write_reg hm rfl (by decide), regWrite_height hp']
    · rw [step_write_reg hm rfl (by decide), regWrite_channels hp', BitVec.ofNat_toNat]
    · rw [step_write_reg hm rfl (by decide), regWrite_colorspace hp', BitVec.ofNat_toNat]

/-- Settles O21: bit 0 set is the START operation, which back-pressure delays only if it emits. -/
theorem controlWriteIsStartOutsideWalk : Obligations.ControlWriteIsStartOutsideWalk := by
  unfold Obligations.ControlWriteIsStartOutsideWalk
  refine ⟨fun s w rest hm => ⟨fun hb => step_write_ctrl_of_clear hm hb, fun _ hw => step_write_ctrl_of_walk hm hw,
    fun hb _ hs => ?_⟩, fun s rest hm => step_read hm rfl⟩
  rw [step_write_ctrl_of_set hm hb]
  rcases hs with hready | hinvalid
  · exact offered_ready _ _ _ hready
  · have hv : ({ s.sinkTick with moves := rest } : State).validation ≠ 0#8 := by
      simpa [State.validation] using hinvalid
    rw [emitsNow_start_eq_false (.inr hv), offered_silent]

/-- Settles O41, from the bits of STATUS and the rules of a read and of a read-only offset. -/
theorem statusShowsThePhase : Obligations.StatusShowsThePhase := by
  unfold Obligations.StatusShowsThePhase
  exact ⟨fun s => ⟨statusWord_bit0, statusWord_bit1, fun _ hi => statusWord_high hi⟩,
    fun s rest hm => step_read hm rfl, fun s w rest hm => step_write_of_readOnly hm rfl (by decide)⟩

end Sys2Proof.Machine

/-! The pixel buffer (20_memory section 2): what FetchPixel answers, byte by byte (R54), and the obligation about it. -/

namespace Sys2Proof.Machine

/-- A pixel is fetched exactly where each of its bytes is; without a fourth byte its A is 0. -/
theorem fetchPixel_eq_ok (s : State) (i : Nat) (p : Pixel) :
    fetchPixel s i = .ok p ↔
      pixByte s (s.channels.toNat * i) = .ok p.r ∧ pixByte s (s.channels.toNat * i + 1) = .ok p.g ∧
      pixByte s (s.channels.toNat * i + 2) = .ok p.b ∧
      if s.channels = 4#8 then pixByte s (s.channels.toNat * i + 3) = .ok p.a else p.a = 0#8 := by
  obtain ⟨r, g, b, a⟩ := p
  simp only [fetchPixel, Nat.add_zero]
  generalize s.channels.toNat = c
  cases pixByte s (c * i) with
  | error e => simp
  | ok r' =>
    cases pixByte s (c * i + 1) with
    | error e => simp
    | ok g' =>
      cases pixByte s (c * i + 2) with
      | error e => simp
      | ok b' =>
        by_cases hc : s.channels = 4#8
        · cases pixByte s (c * i + 3) <;> simp [hc]
        · simp [hc, eq_comm (a := 0#8)]

/-- Settles O24: PixByte and FetchPixel by their rules, with CHANNELS put in. -/
theorem pixelIsReadFromItsOwnBytes : Obligations.PixelIsReadFromItsOwnBytes := by
  unfold Obligations.PixelIsReadFromItsOwnBytes
  refine ⟨pixByte_eq_ok, fun s i p hc => ?_, fun s i p hc => ?_⟩
  · simp [fetchPixel_eq_ok, hc]
  · simp [fetchPixel_eq_ok, hc]

end Sys2Proof.Machine

/-! The length law (30_encoding section 6, R83): a state from which an encode starts, what the walk keeps, that every
chunk handed over is well-formed, and that OUT_LEN, which counts the bytes of OUT, does not wrap. -/

namespace Sys2Proof.Machine

/-! The header and the chunks as bytes. -/

/-- The header framer's bytes are those of R71 in plain arithmetic. -/
theorem packHeader_eq_headerBytes (magic w h : Word) (c cs : Byte) :
    packHeader magic w h c cs = headerBytes magic w h c cs := by
  simp [packHeader, headerBytes, bigEndian, wordByte, BitVec.extractLsb', Nat.shiftRight_eq_div_pow]

theorem headerBytes_length (magic w h : Word) (c cs : Byte) : (headerBytes magic w h c cs).length = 14 := rfl

/-- MAGIC plays no part in a chunk. -/
theorem encode_chunk_magic (magic : BitVec 32) {i : Instr} (h : i.isChunk = true) :
    encode magic i = encode 0#32 i := by
  cases i with
  | hdr | start => cases h
  | index | diff | luma | run | rgb | rgba => rfl

theorem encode_chunks_magic (magic : BitVec 32) {is : List Instr} (h : ∀ i ∈ is, i.isChunk = true) :
    (is.flatMap fun i => (encode magic i).bytes) = is.flatMap fun i => (encode 0#32 i).bytes :=
  List.flatMap_congr fun i hi => congrArg OpWord.bytes (encode_chunk_magic magic (h i hi))

theorem encode_chunk_length (magic : BitVec 32) {i : Instr} (h : i.isChunk = true) :
    (encode magic i).bytes.length = i.byteLength := by
  cases i with
  | hdr | start => cases h
  | index | diff | luma | run | rgb | rgba => rfl

/-- The encodings of chunks, one after the other, are as long as the rows say. -/
theorem encode_chunks_length (magic : BitVec 32) {is : List Instr} (h : ∀ i ∈ is, i.isChunk = true) :
    (is.flatMap fun i => (encode magic i).bytes).length = (is.map Instr.byteLength).sum := by
  rw [List.length_flatMap, List.map_congr_left fun i hi => encode_chunk_length magic (h i hi)]

theorem byteLength_le_of_isChunk {i : Instr} (h : i.isChunk = true) : i.byteLength ≤ 5 := by
  cases i with
  | hdr | start => cases h
  | index | diff | luma | run | rgb | rgba => simp [Instr.byteLength]

/-! Every chunk handed over is well-formed: RUN stays at most 61 at a step boundary (42 R144). -/

theorem wf_run {n : BitVec 6} (h : n.toNat ≤ 61) : (Instr.run n).wf = true := by
  simp [Instr.wf, Instr.runInRange, Instr.headerDimensionsInRange, Instr.headerChannelsInRange,
    Instr.headerColorspaceInRange, h]

/-- A chunk other than RUN has no operand out of range (30 R79). -/
theorem wf_of_not_run {i : Instr} (hc : i.isChunk = true) (hr : ∀ n, i ≠ .run n) : i.wf = true := by
  cases i with
  | hdr | start => cases hc
  | run n => exact absurd rfl (hr n)
  | index | diff | luma | rgb | rgba => rfl

/-- Run lengths 1 to 62 are those a RUN chunk carries. -/
theorem opRun_wf {n : BitVec 6} (h0 : n ≠ 0#6) (h : n.toNat ≤ 62) : (opRun n).wf = true :=
  wf_run (by bv_omega)

theorem literal_ne_run (s : State) (p : Pixel) (n : BitVec 6) : literal s p ≠ .run n := by
  unfold literal
  split <;> nofun

/-- A pixel that does not extend a run is never classified as RUN. -/
theorem classify_ne_run (s : State) (p : Pixel) (n : BitVec 6) : classify s p ≠ .run n := by
  unfold classify
  split_ifs
  · exact literal_ne_run s p n
  · nofun
  · nofun
  · nofun
  · exact literal_ne_run s p n

theorem flushed_wf {s : State} (h : s.run.toNat ≤ 61) : ∀ i ∈ flushed s, i.wf = true := by
  unfold flushed
  split_ifs with h0
  · simp
  · simpa using opRun_wf h0 (by omega)

theorem selected_wf {s : State} (h : s.run.toNat ≤ 61) (p : Pixel) : ∀ i ∈ selected s p, i.wf = true := by
  unfold selected
  split_ifs
  · simp [opRun_wf, runMax]
  · simp
  · intro i hi
    rcases List.mem_append.1 hi with hi | hi
    · exact flushed_wf h i hi
    · rw [List.mem_singleton.1 hi]
      exact wf_of_not_run (classify_isChunk s p) (classify_ne_run s p)

/-- A run of 62 is flushed at once, so RUN never passes 61 (42 R144). -/
theorem runAfter_le {s : State} (h : s.run.toNat ≤ 61) : (runAfter s).toNat ≤ 61 := by
  unfold runAfter runMax
  split_ifs with hmax
  · decide
  · bv_omega

theorem afterPixel_run_le {s : State} (h : s.run.toNat ≤ 61) (p : Pixel) : (afterPixel s p).run.toNat ≤ 61 := by
  cases hc : continuesRun s p with
  | true => rw [afterPixel_of_run s p hc]; exact runAfter_le h
  | false => simp [afterPixel_of_new s p hc]

theorem chunksFrom_wf (n : Nat) {s : State} (h : s.run.toNat ≤ 61) : ∀ i ∈ chunksFrom n s, i.wf = true := by
  induction n generalizing s with
  | zero => exact flushed_wf h
  | succ n ih =>
    intro i hi
    unfold chunksFrom at hi
    split at hi
    · next p _ => exact (List.mem_append.1 hi).elim (selected_wf h p i) (ih (afterPixel_run_le h p) i)
    · cases hi

/-! How many bytes there can be: at most a flushed run and one chunk a pixel, and the run FINISH flushes. -/

theorem flushed_byteLength_le (s : State) : ((flushed s).map Instr.byteLength).sum ≤ 1 := by
  unfold flushed
  split <;> simp [opRun, Instr.byteLength]

theorem selected_byteLength_le (s : State) (p : Pixel) : ((selected s p).map Instr.byteLength).sum ≤ 6 := by
  unfold selected
  split_ifs
  · simp [opRun, Instr.byteLength]
  · simp
  · have hrun := flushed_byteLength_le s
    have hchunk := byteLength_le_of_isChunk (classify_isChunk s p)
    simp only [List.map_append, List.map_cons, List.map_nil, List.sum_append, List.sum_singleton]
    omega

theorem chunksFrom_byteLength_le (n : Nat) (s : State) :
    ((chunksFrom n s).map Instr.byteLength).sum ≤ 6 * n + 1 := by
  induction n generalizing s with
  | zero => exact flushed_byteLength_le s
  | succ n ih =>
    unfold chunksFrom
    split
    · next p _ =>
      have hsel := selected_byteLength_le s p
      have hrest := ih (afterPixel s p)
      rw [List.map_append, List.sum_append]
      omega
    · simp

theorem pixels_lt (s : State) : s.pixels < 2 ^ 64 :=
  calc s.width.toNat * s.height.toNat < 2 ^ 32 * 2 ^ 32 := Nat.mul_lt_mul'' s.width.isLt s.height.isLt
    _ = 2 ^ 64 := by norm_num

/-! What a walk keeps: OUT_LEN counts the bytes of OUT (10 R27), and no PIXEL or FINISH step raises an error. -/

/-- No error, and OUT_LEN is the number of bytes in OUT, cut to its width. -/
def CountsWithoutError (s : State) : Prop := s.err = 0#8 ∧ s.outLen = BitVec.ofNat 67 s.out.length

theorem CountsWithoutError.emitAll {s : State} (h : CountsWithoutError s) (bs : List Byte) :
    CountsWithoutError (s.emitAll bs) := by
  obtain ⟨herr, hlen⟩ := h
  simp [CountsWithoutError, herr, hlen, BitVec.ofNat_add]

/-- What every PIXEL step keeps holds after a walk. -/
theorem walkPixels_keeps {P : State → Prop} (hP : ∀ s t, P s → pixelStep s = .next t → P t) (n : Nat) {s u : State}
    (hs : P s) (hw : walkPixels n s = .next u) : P u := by
  induction n generalizing s with
  | zero => cases hw; exact hs
  | succ n ih =>
    unfold walkPixels at hw
    split at hw
    · next t ht => exact ih (hP s t hs ht) hw
    · next o hne => exact absurd hw (hne u)

theorem pixelStep_countsWithoutError {s t : State} (hs : CountsWithoutError s) (h : pixelStep s = .next t) :
    CountsWithoutError t := by
  obtain ⟨p, -, rfl⟩ := pixelStep_eq_next h
  exact CountsWithoutError.emitAll (by simpa [CountsWithoutError] using hs) _

theorem finishStep_countsWithoutError {s t : State} (hs : CountsWithoutError s) (h : finishStep s = .next t) :
    CountsWithoutError t := by
  rw [finishStep_eq] at h
  cases h
  exact hs.emitAll _

/-! The whole encode from a state outside WALK. -/

/-- The state in which a START step leaves a valid descriptor (40 R107). -/
def State.started (s : State) : State :=
  { s.init.emitAll (headerBytes s.config.magic s.width s.height s.channels s.colorspace) with phase := .walk }

@[simp] theorem State.started_run (s : State) : s.started.run = 0#6 := by simp [State.started]

@[simp] theorem State.started_out (s : State) :
    s.started.out = headerBytes s.config.magic s.width s.height s.channels s.colorspace := by
  simp [State.started]

theorem State.started_countsWithoutError (s : State) : CountsWithoutError s.started := by
  simp [CountsWithoutError, State.started]

theorem execStart_eq_started {s : State} (h : s.phase ≠ .walk) (hv : s.validation = 0#8) :
    execStart s = .next s.started := by
  rw [execStart_of_valid s h hv, packHeader_eq_headerBytes]
  rfl

/-- An encode fails its validation, or goes from START through the walk to FINISH. -/
theorem encodeFrom_cases {s v : State} (h : s.phase ≠ .walk) (he : encodeFrom s = .next v) :
    (s.validation ≠ 0#8 ∧ v = s.init.raiseErr s.validation) ∨
    (s.validation = 0#8 ∧ ∃ u, walkPixels s.started.pixels s.started = .next u ∧ finishStep u = .next v) := by
  unfold encodeFrom at he
  by_cases hv : s.validation = 0#8
  · rw [execStart_eq_started h hv] at he
    simp only [State.started, if_true] at he
    split at he
    · next u hu => exact .inr ⟨hv, u, hu, he⟩
    · next o hne => exact absurd he (hne v)
  · rw [execStart_of_invalid s h hv] at he
    exact .inl ⟨hv, by simpa using he.symm⟩

/-- A successful encode: the header and the chunks in OUT, each byte counted in OUT_LEN (30 R83). -/
theorem encode_out_outLen {s u v : State} (hw : walkPixels s.started.pixels s.started = .next u)
    (hf : finishStep u = .next v) :
    v.err = 0#8 ∧
    v.out = headerBytes s.config.magic s.width s.height s.channels s.colorspace ++
      (chunksFrom s.started.pixels s.started).flatMap (fun i => (encode s.config.magic i).bytes) ∧
    v.outLen.toNat = 14 + ((chunksFrom s.started.pixels s.started).map Instr.byteLength).sum := by
  have hchunks := chunksFrom_isChunk s.started.pixels s.started
  have hout : v.out = headerBytes s.config.magic s.width s.height s.channels s.colorspace ++
      (chunksFrom s.started.pixels s.started).flatMap (fun i => (encode s.config.magic i).bytes) := by
    rw [walkPixels_finish_out _ hw hf, State.started_out, encode_chunks_magic s.config.magic hchunks]
  obtain ⟨herr, hlen⟩ := finishStep_countsWithoutError
    (walkPixels_keeps (fun _ _ => pixelStep_countsWithoutError) _ s.started_countsWithoutError hw) hf
  have hbound := chunksFrom_byteLength_le s.started.pixels s.started
  have hpixels := pixels_lt s.started
  refine ⟨herr, hout, ?_⟩
  rw [hlen, hout, List.length_append, headerBytes_length, encode_chunks_length _ hchunks, BitVec.toNat_ofNat]
  exact Nat.mod_eq_of_lt (by omega)

/-- Settles O56: a failed START leaves OUT empty; a successful one is followed by the walk and the FINISH step. -/
theorem lengthLaw : Obligations.LengthLaw := by
  unfold Obligations.LengthLaw
  intro c d pix v he
  have hphase : (prepared c d pix).phase ≠ .walk := nofun
  rcases encodeFrom_cases hphase he with ⟨hv, rfl⟩ | ⟨hv, u, hw, hf⟩
  · exact ⟨fun _ => ⟨rfl, rfl⟩, fun herr => absurd herr hv⟩
  · obtain ⟨herr, hout, hlen⟩ := encode_out_outLen hw hf
    exact ⟨fun h => absurd herr h, fun _ => ⟨_, execStart_eq_started hphase hv,
      fun i hi => ⟨chunksFrom_isChunk _ _ i hi, chunksFrom_wf _ (by simp) i hi⟩, hout, hlen⟩⟩

end Sys2Proof.Machine

/-! The header and START (40_command_validate_header): what the header appends, which code a descriptor gets, what INIT
clears, and the obligations about them. -/

namespace Sys2Proof.Machine

/-! The header (40 R105). -/

theorem emitted_emitAll (s : State) (bs : List Byte) : Emitted s (s.emitAll bs) bs :=
  ⟨State.emitAll_out s bs, State.emitAll_outLen s bs⟩

theorem onlyOutputChanged_emitAll (s : State) (bs : List Byte) : OnlyOutputChanged s (s.emitAll bs) := by
  rw [State.emitAll_eq]
  exact ⟨rfl, fun _ => rfl⟩

/-- Settles O16: the header's bytes by division, appended by Emit. -/
theorem headerAppendsFourteenBytes : Obligations.HeaderAppendsFourteenBytes := by
  unfold Obligations.HeaderAppendsFourteenBytes
  intro w h c cs s
  refine ⟨_, exec_hdr w h c cs s, ?_, headerBytes_length s.config.magic w h c cs, onlyOutputChanged_emitAll s _⟩
  rw [packHeader_eq_headerBytes]
  exact emitted_emitAll s _

/-! VALIDATE (40 R103). -/

/-- Each code with the descriptors that get it: a violation counts only where none before it does. -/
theorem validate_cases (src : BitVec 64) (w h : Word) (c cs : Byte) :
    (validate src w h c cs = 1#8 ∧ src = 0#64) ∨
    (validate src w h c cs = 2#8 ∧ src ≠ 0#64 ∧ (w = 0#32 ∨ h = 0#32)) ∨
    (validate src w h c cs = 3#8 ∧ src ≠ 0#64 ∧ w ≠ 0#32 ∧ h ≠ 0#32 ∧ c ≠ 3#8 ∧ c ≠ 4#8) ∨
    (validate src w h c cs = 4#8 ∧
      src ≠ 0#64 ∧ w ≠ 0#32 ∧ h ≠ 0#32 ∧ (c = 3#8 ∨ c = 4#8) ∧ cs ≠ 0#8 ∧ cs ≠ 1#8) ∨
    (validate src w h c cs = 0#8 ∧
      src ≠ 0#64 ∧ w ≠ 0#32 ∧ h ≠ 0#32 ∧ (c = 3#8 ∨ c = 4#8) ∧ (cs = 0#8 ∨ cs = 1#8)) := by
  unfold validate
  split_ifs with hsrc hdim hch hcs
  · exact .inl ⟨rfl, hsrc⟩
  · exact .inr (.inl ⟨rfl, hsrc, hdim⟩)
  all_goals obtain ⟨hw, hh⟩ := not_or.1 hdim
  · exact .inr (.inr (.inl ⟨rfl, hsrc, hw, hh, hch⟩))
  · exact .inr (.inr (.inr (.inl ⟨rfl, hsrc, hw, hh, or_iff_not_and_not.2 hch, hcs⟩)))
  · exact .inr (.inr (.inr (.inr ⟨rfl, hsrc, hw, hh, or_iff_not_and_not.2 hch, or_iff_not_and_not.2 hcs⟩)))

/-- Settles O17: the five cases exclude each other, and so do their codes. -/
theorem validationReportsFirstViolation : Obligations.ValidationReportsFirstViolation := by
  unfold Obligations.ValidationReportsFirstViolation
  intro src w h c cs
  rcases validate_cases src w h c cs with ⟨hv, hsrc⟩ | ⟨hv, hsrc, hdim⟩ | ⟨hv, hsrc, hw, hh, hch3, hch4⟩ |
    ⟨hv, hsrc, hw, hh, hch, hcs0, hcs1⟩ | ⟨hv, hsrc, hw, hh, hch, hcs⟩ <;> rw [hv]
  · simp [hsrc]
  · rcases hdim with hdim | hdim <;> simp [hsrc, hdim]
  · simp [hsrc, hw, hh, hch3, hch4]
  · rcases hch with hch | hch <;> simp [hsrc, hw, hh, hch, hcs0, hcs1]
  · rcases hch with hch | hch <;> rcases hcs with hcs | hcs <;> simp [hsrc, hw, hh, hch, hcs]

/-! INIT (40 R101), and the error entry after it (40 R104; 60 R204). -/

theorem workingStateCleared_init (s : State) : WorkingStateCleared s.init :=
  ⟨rfl, rfl, rfl, slotAt_emptyCache_valid s.draws⟩

/-- Settles O18, field by field; every slot of INIT's cache is empty. -/
theorem initClearsWorkingState : Obligations.InitClearsWorkingState := by
  unfold Obligations.InitClearsWorkingState
  exact fun s => ⟨rfl, rfl, rfl, workingStateCleared_init s, rfl, rfl, fun _ => rfl⟩

/-- Settles O19: such a START is INIT and `raise Err`, neither of which reads PIX, nor does the validation. -/
theorem failingStartRaisesItsCode : Obligations.FailingStartRaisesItsCode := by
  unfold Obligations.FailingStartRaisesItsCode
  intro s hp hv
  refine ⟨_, execStart_of_invalid s hp hv, rfl, rfl, rfl, rfl, workingStateCleared_init s, ⟨rfl, fun _ => rfl⟩, ?_⟩
  exact fun m => execStart_of_invalid { s with pix := m } hp hv

end Sys2Proof.Machine

/-! The hash and the cache (41_hash_cache): the slot of a pixel, what LOOKUP and HIT answer, what STORE overwrites, and
the obligations about them. -/

namespace Sys2Proof.Machine

/-! HASH (41 R120). -/

/-- Six bits hold every remainder mod 64, so the packing of the hash loses nothing. -/
theorem hash_toNat (p : Pixel) :
    (hash p).toNat = (3 * p.r.toNat + 5 * p.g.toNat + 7 * p.b.toNat + 11 * p.a.toNat) % 64 := by
  unfold hash
  rw [BitVec.toNat_ofNat]
  exact Nat.mod_mod _ 64

/-- Settles O5: the sum with the factors on the other side, and without its alpha term where A = 0. -/
theorem hashFormula : Obligations.HashFormula := by
  unfold Obligations.HashFormula
  intro p
  rw [hash_toNat]
  refine ⟨by congr 1; ring, fun ha => ?_⟩
  have halpha : p.a.toNat = 0 := by rw [ha]; rfl
  rw [halpha]
  congr 1
  ring

/-! LOOKUP and HIT (41 R123). -/

theorem lookup_of_invalid {c : Vector Slot 64} {i : BitVec 6} (h : (slotAt c i).valid = false) :
    lookup c i = none := by
  simp [lookup, h]

theorem lookup_of_valid {c : Vector Slot 64} {i : BitVec 6} (h : (slotAt c i).valid = true) :
    lookup c i = some (slotAt c i).px := by
  simp [lookup, h]

/-- A slot holds a pixel when it is valid and its four fields are the pixel's (00_scope R11). -/
theorem slot_holds_iff (t : Slot) (p : Pixel) :
    t = { valid := true, px := p } ↔
      t.valid = true ∧ t.px.r = p.r ∧ t.px.g = p.g ∧ t.px.b = p.b ∧ t.px.a = p.a := by
  obtain ⟨v, r, g, b, a⟩ := t
  obtain ⟨pr, pg, pb, pa⟩ := p
  simp

theorem hit_storePixel_same (c : Vector Slot 64) (p : Pixel) : hit (storePixel c p) p = true :=
  (hit_iff _ p).2 (slotAt_storePixel_same c p)

/-- The slot of a colliding pixel holds the pixel that was stored, which is another one. -/
theorem hit_storePixel_collision (c : Vector Slot 64) {p q : Pixel} (hne : p ≠ q) (hcollide : hash p = hash q) :
    hit (storePixel c p) q = false := by
  rw [← Bool.not_eq_true, hit_iff, ← hcollide, slotAt_storePixel_same]
  exact fun h => hne (congrArg Slot.px h)

/-- Settles O23: LOOKUP by the valid bit, HIT by the fields of the slot, which after a STORE are the stored pixel's. -/
theorem hitNeedsTheVeryPixel : Obligations.HitNeedsTheVeryPixel := by
  unfold Obligations.HitNeedsTheVeryPixel
  exact fun c => ⟨fun _ => lookup_of_invalid, fun _ => lookup_of_valid,
    fun p => (hit_iff c p).trans (slot_holds_iff _ p),
    fun p _ hne hcollide => ⟨hit_storePixel_collision c hne hcollide, hit_storePixel_same c p⟩⟩

/-! STORE (41 R124). -/

/-- Settles O22: the slots after a STORE, and a second STORE finds its pixel held. -/
theorem storeOverwritesOneSlot : Obligations.StoreOverwritesOneSlot := by
  unfold Obligations.StoreOverwritesOneSlot
  exact fun c p => ⟨slotAt_storePixel_same c p, slotAt_storePixel_other c p, storePixel_of_held c p,
    storePixel_of_held (storePixel c p) p (slotAt_storePixel_same c p)⟩

end Sys2Proof.Machine

/-! The chunk selector (42_chunk_selector): the step of an undisturbed block in WALK, the bytes of each chunk a pixel can
be classified as, and the obligations about the PIXEL and FINISH steps. -/

namespace Sys2Proof.Machine

/-! The step of an undisturbed block (42 R140). -/

theorem State.undisturbed.ready {s : State} (h : s.undisturbed) : s.sinkReady = true :=
  let ⟨_, _, hready⟩ := h
  hready

theorem State.atNewColour.prevValid {s : State} {p : Pixel} (h : s.atNewColour p) : s.prevValid = true :=
  let ⟨_, hprev, _, _⟩ := h
  hprev

theorem step_of_undisturbed {s : State} (h : s.undisturbed) : step s = encoderStep s := by
  obtain ⟨hmoves, hlevels, -⟩ := h
  simp [step, nextMove, State.sinkTick_of_nil s hlevels, hmoves]

/-- The PIXEL step on a readable pixel answers a next state. -/
theorem step_of_atPixel {s : State} {p : Pixel} (h : s.atPixel p) :
    step s = .next ((afterPixel s p).emitAll (selectedBytes s p)) := by
  obtain ⟨hquiet, hwalk, hidx, hfetch⟩ := h
  rw [step_of_undisturbed hquiet, encoderStep_of_pixel s hwalk hidx hquiet.ready, pixelStep, hfetch,
    ← afterPixel_emitAll]
  exact pixelStepOn_eq s p

theorem step_of_finish {s : State} (hquiet : s.undisturbed) (hwalk : s.phase = .walk)
    (hidx : s.pixIdx.toNat = s.pixels) :
    step s = .next { s.emitAll ((flushed s).flatMap fun i => (encode 0#32 i).bytes) with
      run := 0#6, phase := .done } := by
  rw [step_of_undisturbed hquiet, encoderStep_of_finish s hwalk hidx hquiet.ready, finishStep_eq]

/-! What a PIXEL step leaves, whichever bytes it emits (42 R141, R151). -/

theorem emitted_afterPixel (s : State) (p : Pixel) (bs : List Byte) :
    Emitted s ((afterPixel s p).emitAll bs) bs := by
  simp [Emitted]

theorem onlyPixelStateChanged_afterPixel (s : State) (p : Pixel) (bs : List Byte) :
    OnlyPixelStateChanged s ((afterPixel s p).emitAll bs) := by
  rw [State.emitAll_eq]
  unfold afterPixel
  split <;> exact ⟨rfl, fun _ => rfl⟩

theorem continuesRun_iff (s : State) (p : Pixel) : continuesRun s p = true ↔ s.prevValid = true ∧ p = s.prev := by
  simp [continuesRun]

theorem continuesRun_of_ne {s : State} {p : Pixel} (h : p ≠ s.prev) : continuesRun s p = false := by
  simp [continuesRun, h]

theorem continuesRun_of_noPrev {s : State} (h : s.prevValid = false) (p : Pixel) : continuesRun s p = false := by
  simp [continuesRun, h]

/-- A pixel that extends no run is stored and becomes PREV. -/
theorem tookPixel_afterPixel {s : State} {p : Pixel} (h : continuesRun s p = false) (bs : List Byte) :
    TookPixel s ((afterPixel s p).emitAll bs) p bs := by
  refine ⟨emitted_afterPixel s p bs, onlyPixelStateChanged_afterPixel s p bs, ?_⟩
  rw [afterPixel_of_new s p h]
  simp +contextual [slotAt_storePixel_other]

/-- A pixel that its slot already holds leaves the cache as it is (41 R125). -/
theorem TookPixel.cache_of_held {s t : State} {p : Pixel} {bs : List Byte} (h : TookPixel s t p bs)
    (hheld : slotAt s.cache (hash p) = { valid := true, px := p }) : t.cache = s.cache := by
  obtain ⟨-, -, -, -, -, -, hstored, hothers⟩ := h
  refine cache_ext _ _ fun i => ?_
  by_cases hi : i = hash p
  · rw [hi, hstored, hheld]
  · exact hothers i hi

/-! The bytes of the chunks (30 R76 to R81) by their values. -/

theorem packIndex_eq : ∀ idx : BitVec 6, packIndex idx = BitVec.ofNat 8 idx.toNat := by decide

/-- The byte of a run of 1 to 63 (30 R79). -/
theorem packRun_pred_eq : ∀ n : BitVec 6, n ≠ 0#6 → packRun (n - 1#6) = BitVec.ofNat 8 (0xBF + n.toNat) := by decide

theorem packDiff_eq : ∀ fr fg fb : BitVec 2,
    packDiff fr fg fb = BitVec.ofNat 8 (0x40 + 16 * fr.toNat + 4 * fg.toNat + fb.toNat) := by decide

theorem packLumaFirst_eq : ∀ fg : BitVec 6, packLumaFirst fg = BitVec.ofNat 8 (0x80 + fg.toNat) := by decide

theorem packLumaSecond_eq : ∀ frg fbg : BitVec 4,
    packLumaSecond frg fbg = BitVec.ofNat 8 (16 * frg.toNat + fbg.toNat) := by decide

/-- A delta that its bias brings into the field is stored without loss (30 R82). -/
theorem biased_toNat {n : Nat} (hn : n ≤ 8) {bias d : Byte} (h0 : 0 ≤ d.toInt + bias.toNat)
    (h1 : d.toInt + bias.toNat < 2 ^ n) : ((biased n bias d).toNat : Int) = d.toInt + bias.toNat := by
  have hpow : (2 : Int) ^ n ≤ 2 ^ 8 := pow_le_pow_right₀ (by norm_num) hn
  have hbyte : ((add8 d bias).toNat : Int) = d.toInt + bias.toNat := by
    have hd := d.isLt
    rw [add8, BitVec.toNat_add]
    rw [BitVec.toInt_eq_toNat_cond] at h0 h1 ⊢
    split_ifs at h0 h1 ⊢ <;> omega
  have hfit : (add8 d bias).toNat < 2 ^ n := by exact_mod_cast hbyte ▸ h1
  rw [biased, BitVec.toNat_setWidth, Nat.mod_eq_of_lt hfit, hbyte]

theorem diffFits_iff (p q : Pixel) :
    diffFits p q = true ↔ (-2 ≤ (p.r - q.r).toInt ∧ (p.r - q.r).toInt ≤ 1) ∧
      (-2 ≤ (p.g - q.g).toInt ∧ (p.g - q.g).toInt ≤ 1) ∧ (-2 ≤ (p.b - q.b).toInt ∧ (p.b - q.b).toInt ≤ 1) := by
  simp [diffFits, fitsDiff, deltas, s8, sub8, and_assoc]

theorem lumaFits_iff (p q : Pixel) :
    lumaFits p q = true ↔ (-32 ≤ (p.g - q.g).toInt ∧ (p.g - q.g).toInt ≤ 31) ∧
      (-8 ≤ ((p.r - q.r) - (p.g - q.g)).toInt ∧ ((p.r - q.r) - (p.g - q.g)).toInt ≤ 7) ∧
      (-8 ≤ ((p.b - q.b) - (p.g - q.g)).toInt ∧ ((p.b - q.b) - (p.g - q.g)).toInt ≤ 7) := by
  simp [lumaFits, deltas, Deltas.dRG, Deltas.dBG, s8, sub8, and_assoc]

theorem encode_index_bytes (magic : BitVec 32) (idx : BitVec 6) :
    (encode magic (.index idx)).bytes = [BitVec.ofNat 8 idx.toNat] :=
  congrArg (fun b => [b]) (packIndex_eq idx)

/-- The DIFF byte of two pixels (43 R164), in their signed deltas: each rebiased delta is the natural number in its
field. -/
theorem encode_opDiff_bytes (magic : BitVec 32) {p q : Pixel} (h : diffFits p q = true) :
    (encode magic (opDiff p q)).bytes = [BitVec.ofInt 8 (0x40 + 16 * ((p.r - q.r).toInt + 2) +
      4 * ((p.g - q.g).toInt + 2) + ((p.b - q.b).toInt + 2))] := by
  have hfield (d : Byte) (hd : -2 ≤ d.toInt ∧ d.toInt ≤ 1) : d.toInt + 2 = (biased 2 2#8 d).toNat :=
    (biased_toNat (n := 2) (bias := 2#8) (by decide) (by simp; omega) (by simp; omega)).symm
  obtain ⟨hr, hg, hb⟩ := (diffFits_iff p q).1 h
  rw [hfield _ hr, hfield _ hg, hfield _ hb]
  exact congrArg (fun b => [b]) (packDiff_eq _ _ _)

/-- The two LUMA bytes of two pixels (43 R165), in their signed deltas: each rebiased delta is the natural number in its
field. -/
theorem encode_opLuma_bytes (magic : BitVec 32) {p q : Pixel} (h : lumaFits p q = true) :
    (encode magic (opLuma p q)).bytes =
      [BitVec.ofInt 8 (0x80 + ((p.g - q.g).toInt + 32)),
       BitVec.ofInt 8 (16 * (((p.r - q.r) - (p.g - q.g)).toInt + 8) + (((p.b - q.b) - (p.g - q.g)).toInt + 8))] := by
  have hgreen (d : Byte) (hd : -32 ≤ d.toInt ∧ d.toInt ≤ 31) : d.toInt + 32 = (biased 6 32#8 d).toNat :=
    (biased_toNat (n := 6) (bias := 32#8) (by decide) (by simp; omega) (by simp; omega)).symm
  have hcross (d : Byte) (hd : -8 ≤ d.toInt ∧ d.toInt ≤ 7) : d.toInt + 8 = (biased 4 8#8 d).toNat :=
    (biased_toNat (n := 4) (bias := 8#8) (by decide) (by simp; omega) (by simp; omega)).symm
  obtain ⟨hg, hrg, hbg⟩ := (lumaFits_iff p q).1 h
  rw [hgreen _ hg, hcross _ hrg, hcross _ hbg]
  exact congrArg₂ (fun b c => [b, c]) (packLumaFirst_eq _) (packLumaSecond_eq _ _)

theorem encode_literal_bytes (magic : BitVec 32) (s : State) (p : Pixel) :
    (encode magic (literal s p)).bytes = literalBytes s.channels p := by
  unfold literal literalBytes
  split <;> rfl

/-- The pending run, if any, as its byte (43 R166). -/
theorem flushed_bytes (s : State) :
    ((flushed s).flatMap fun i => (encode 0#32 i).bytes) =
      if s.run = 0#6 then [] else [BitVec.ofNat 8 (0xBF + s.run.toNat)] := by
  unfold flushed
  split_ifs with h
  · rfl
  · exact congrArg (fun b => [b]) (packRun_pred_eq s.run h)

/-! The bytes a PIXEL step emits (42 R141). -/

/-- The cap is reached from a run of 61 and from no other (42 R144). -/
theorem run_succ_eq_runMax_iff (n : BitVec 6) : n + 1#6 = runMax ↔ n = 61#6 := by
  unfold runMax
  bv_omega

theorem runAfter_eq (s : State) : runAfter s = if s.run = 61#6 then 0#6 else s.run + 1#6 := by
  simp only [runAfter, run_succ_eq_runMax_iff]

/-- A pixel that extends a run emits nothing, or the byte of a run of 62 (42 R143, R144). -/
theorem selectedBytes_of_run {s : State} {p : Pixel} (h : continuesRun s p = true) :
    selectedBytes s p = if s.run = 61#6 then [0xFD#8] else [] := by
  simp only [selectedBytes, selected, h, if_true, run_succ_eq_runMax_iff]
  split <;> rfl

/-- Any other pixel emits the pending run, then its own chunk (42 R145). -/
theorem selectedBytes_of_new {s : State} {p : Pixel} (h : continuesRun s p = false) :
    selectedBytes s p = (if s.run = 0#6 then [] else [BitVec.ofNat 8 (0xBF + s.run.toNat)]) ++
      (encode 0#32 (classify s p)).bytes := by
  simp [selectedBytes, selected, h, flushed_bytes]

/-- With no run pending, a pixel that extends none emits its own chunk alone. -/
theorem step_tookPixel {s : State} {p : Pixel} (h : s.atPixel p) (hnew : continuesRun s p = false)
    (hrun : s.run = 0#6) :
    ∃ t, step s = .next t ∧ TookPixel s t p (encode 0#32 (classify s p)).bytes := by
  have hstep := step_of_atPixel h
  rw [selectedBytes_of_new hnew, if_pos hrun, List.nil_append] at hstep
  exact ⟨_, hstep, tookPixel_afterPixel hnew _⟩

theorem step_of_newColour {s : State} {p : Pixel} (h : s.atNewColour p) :
    ∃ t, step s = .next t ∧ TookPixel s t p (encode 0#32 (classify s p)).bytes :=
  let ⟨hpixel, _, hne, hrun⟩ := h
  step_tookPixel hpixel (continuesRun_of_ne hne) hrun

/-! The classification (42 R142, R146 to R150), an equation per chunk. -/

theorem hit_iff_lookup (c : Vector Slot 64) (p : Pixel) : hit c p = true ↔ lookup c (hash p) = some p :=
  (hit_iff c p).trans (lookup_eq_some c (hash p) p).symm

theorem alphaGate_iff (p q : Pixel) : alphaGate p q = true ↔ p.a = q.a := by
  simp [alphaGate]

section
variable {s : State} {p : Pixel}

theorem classify_of_noPrev (hprev : s.prevValid = false) : classify s p = literal s p := by
  simp [classify, hprev]

theorem classify_of_hit (hprev : s.prevValid = true) (hhit : lookup s.cache (hash p) = some p) :
    classify s p = .index (hash p) := by
  simp [classify, hprev, hit_iff_lookup, hhit]

theorem classify_of_diffFits (hprev : s.prevValid = true) (hmiss : lookup s.cache (hash p) ≠ some p)
    (halpha : p.a = s.prev.a) (hdiff : diffFits p s.prev = true) : classify s p = opDiff p s.prev := by
  simp [classify, hprev, hit_iff_lookup, hmiss, alphaGate_iff, halpha, hdiff]

theorem classify_of_lumaFits (hprev : s.prevValid = true) (hmiss : lookup s.cache (hash p) ≠ some p)
    (halpha : p.a = s.prev.a) (hdiff : diffFits p s.prev = false) (hluma : lumaFits p s.prev = true) :
    classify s p = opLuma p s.prev := by
  simp [classify, hprev, hit_iff_lookup, hmiss, alphaGate_iff, halpha, hdiff, hluma]

theorem classify_of_noMatch (hprev : s.prevValid = true) (hmiss : lookup s.cache (hash p) ≠ some p)
    (hdiff : ¬ (p.a = s.prev.a ∧ diffFits p s.prev = true))
    (hluma : ¬ (p.a = s.prev.a ∧ lumaFits p s.prev = true)) : classify s p = literal s p := by
  rw [← alphaGate_iff, ← Bool.and_eq_true] at hdiff hluma
  unfold classify
  rw [if_neg (by simp [hprev]), if_neg (mt (hit_iff_lookup _ p).1 hmiss), if_neg hdiff, if_neg hluma]

end

/-! A pending run before a pixel that differs from PREV (42 R145). -/

/-- The state with the byte of its run in OUT and no run pending. -/
def State.runFlushed (s : State) : State := { s.emit (BitVec.ofNat 8 (0xBF + s.run.toNat)) with run := 0#6 }

/-- The pixel that comes next is the same. -/
theorem State.atPixel.runFlushed {s : State} {p : Pixel} (h : s.atPixel p) : s.runFlushed.atPixel p := h

/-- The classification reads neither OUT nor RUN. -/
theorem selectedBytes_runFlushed {s : State} {p : Pixel} (hnew : continuesRun s p = false) (hpending : s.run ≠ 0#6) :
    selectedBytes s p = BitVec.ofNat 8 (0xBF + s.run.toNat) :: selectedBytes s.runFlushed p := by
  have hflushed : s.runFlushed.run = 0#6 := rfl
  rw [selectedBytes_of_new hnew, if_neg hpending, selectedBytes_of_new (s := s.runFlushed) hnew, if_pos hflushed]
  rfl

/-- With a pending run or without one, RUN is 0 afterwards. -/
theorem afterPixel_runFlushed {s : State} {p : Pixel} (hnew : continuesRun s p = false) :
    afterPixel s.runFlushed p = (afterPixel s p).emit (BitVec.ofNat 8 (0xBF + s.run.toNat)) := by
  rw [afterPixel_of_new s p hnew, afterPixel_of_new s.runFlushed p hnew]
  rfl

theorem step_runFlushed {s : State} {p : Pixel} (h : s.atPixel p) (hne : p ≠ s.prev) (hpending : s.run ≠ 0#6) :
    step s.runFlushed = step s := by
  have hnew : continuesRun s p = false := continuesRun_of_ne hne
  rw [step_of_atPixel h, step_of_atPixel h.runFlushed, afterPixel_runFlushed hnew,
    selectedBytes_runFlushed hnew hpending]
  rfl

/-! The obligations about the PIXEL and FINISH steps. -/

/-- Settles O26: at PIX_IDX 0 the invariant leaves PREV invalid and no run pending. -/
theorem firstPixelIsLiteral : Obligations.FirstPixelIsLiteral := by
  unfold Obligations.FirstPixelIsLiteral
  intro s p h hinv hfirst
  have hprev : s.prevValid = false := hinv.prevFromFirst.2 hfirst
  have hrun : s.run = 0#6 := by
    by_contra hrun
    simp [hinv.runHasPrev hrun] at hprev
  rw [← encode_literal_bytes 0#32 s p, ← classify_of_noPrev hprev]
  exact step_tookPixel h (continuesRun_of_noPrev hprev p) hrun

/-- Settles O27: such a pixel writes RUN and PIX_IDX alone, and emits a byte at the cap alone. -/
theorem equalPixelExtendsRun : Obligations.EqualPixelExtendsRun := by
  unfold Obligations.EqualPixelExtendsRun
  intro s p h hprev heq
  have hrun : continuesRun s p = true := (continuesRun_iff s p).2 ⟨hprev, heq⟩
  have hafter := afterPixel_of_run s p hrun
  refine ⟨_, step_of_atPixel h, onlyPixelStateChanged_afterPixel s p _, by simp [hafter], by simp [hafter],
    by simp [hafter, hprev], by simp, fun hcap => ?_, fun hcap => ?_⟩
  · rw [selectedBytes_of_run hrun, if_pos hcap]
    exact ⟨emitted_afterPixel s p _, by simp [hafter, runAfter_eq, hcap]⟩
  · rw [selectedBytes_of_run hrun, if_neg hcap]
    exact ⟨emitted_afterPixel s p _, by simp [hafter, runAfter_eq, hcap]⟩

/-- Settles O29: flushing the run by hand makes no difference to the step. -/
theorem differingPixelFlushesRun : Obligations.DifferingPixelFlushesRun := by
  unfold Obligations.DifferingPixelFlushesRun
  intro s p h _ hne hpos _
  have hpending : s.run ≠ 0#6 := fun h0 => by simp [h0] at hpos
  exact ⟨_, step_of_atPixel h, (step_runFlushed h hne hpending).trans (step_of_atPixel h)⟩

/-- Settles O30: STORE of a pixel its slot already holds changes nothing. -/
theorem cachedPixelIsIndex : Obligations.CachedPixelIsIndex := by
  unfold Obligations.CachedPixelIsIndex
  intro s p h hhit
  obtain ⟨t, hstep, htook⟩ := step_of_newColour h
  rw [classify_of_hit h.prevValid hhit, encode_index_bytes] at htook
  exact ⟨t, hstep, htook, htook.cache_of_held ((lookup_eq_some _ _ _).1 hhit)⟩

/-- Settles O31: the six bounds are DIFF_FITS, and the cache misses. -/
theorem smallDeltaIsDiff : Obligations.SmallDeltaIsDiff := by
  unfold Obligations.SmallDeltaIsDiff
  intro s p h hmiss halpha hr0 hr1 hg0 hg1 hb0 hb1
  have hdiff : diffFits p s.prev = true := (diffFits_iff p s.prev).2 ⟨⟨hr0, hr1⟩, ⟨hg0, hg1⟩, hb0, hb1⟩
  rw [← encode_opDiff_bytes 0#32 hdiff, ← classify_of_diffFits h.prevValid hmiss halpha hdiff]
  exact step_of_newColour h

/-- Settles O32: the six bounds are LUMA_FITS, which is tested once the cache and DIFF_FITS have failed. -/
theorem lumaDeltaIsLuma : Obligations.LumaDeltaIsLuma := by
  unfold Obligations.LumaDeltaIsLuma
  intro s p h hmiss halpha hdiff hg0 hg1 hrg0 hrg1 hbg0 hbg1
  have hluma : lumaFits p s.prev = true := (lumaFits_iff p s.prev).2 ⟨⟨hg0, hg1⟩, ⟨hrg0, hrg1⟩, hbg0, hbg1⟩
  rw [← encode_opLuma_bytes 0#32 hluma, ← classify_of_lumaFits h.prevValid hmiss halpha hdiff hluma]
  exact step_of_newColour h

/-- Settles O34: every test before LITERAL fails, and its marker follows CHANNELS. -/
theorem otherwiseLiteral : Obligations.OtherwiseLiteral := by
  unfold Obligations.OtherwiseLiteral
  intro s p h _ hmiss hdiff hluma
  rw [← encode_literal_bytes 0#32 s p, ← classify_of_noMatch h.prevValid hmiss hdiff hluma]
  exact step_of_newColour h

/-- Settles O33: either delta chunk needs equal alphas, so O34 applies. -/
theorem alphaChangeForcesLiteral : Obligations.AlphaChangeForcesLiteral := by
  unfold Obligations.AlphaChangeForcesLiteral
  exact fun s p h hchannels hmiss halpha =>
    otherwiseLiteral s p h hchannels hmiss (fun hdiff => halpha hdiff.1) (fun hluma => halpha hluma.1)

/-- Settles O35: FINISH hands over the pending run alone. -/
theorem finishFlushesAndEnds : Obligations.FinishFlushesAndEnds := by
  unfold Obligations.FinishFlushesAndEnds
  intro s hquiet hwalk hidx _
  refine ⟨_, step_of_finish hquiet hwalk hidx, ?_, ?_⟩
  · rw [flushed_bytes]
    exact emitted_emitAll s _
  · rw [State.emitAll_eq]

end Sys2Proof.Machine

/-! The chunk operations (43_chunk_ops): the bytes each appends, what its chunk means to a reader, and the obligations
about them. -/

namespace Sys2Proof.Machine

/-! What exec of a chunk does (43 R160). -/

/-- Emit does not read PIX. -/
theorem emitAll_withPix (s : State) (m : Memory) (bs : List Byte) :
    ({ s with pix := m } : State).emitAll bs = { s.emitAll bs with pix := m } := by
  simp only [State.emitAll_eq]

/-- Every chunk has at least its first byte (30 R75). -/
theorem one_le_byteLength_of_isChunk {i : Instr} (h : i.isChunk = true) : 1 ≤ i.byteLength := by
  cases i with
  | hdr | start => cases h
  | index | diff | luma | run | rgb | rgba => simp [Instr.byteLength]

/-- A chunk operation appends the bytes its encoding amounts to. -/
theorem exec_chunk_appends {i : Instr} (hi : i.isChunk = true) {bs : List Byte} (hbytes : (encode 0#32 i).bytes = bs)
    (s : State) : ∃ t, exec i s = .next t ∧ Emitted s t bs ∧ OnlyOutputChanged s t := by
  rw [← hbytes]
  exact ⟨_, exec_chunk i hi 0#32 s, emitted_emitAll s _, onlyOutputChanged_emitAll s _⟩

/-! The encodings by their values (30 R77 to R79). -/

theorem encode_diff_bytes (magic : BitVec 32) (fr fg fb : BitVec 2) :
    (encode magic (.diff fr fg fb)).bytes =
      [BitVec.ofNat 8 (0x40 + 16 * fr.toNat + 4 * fg.toNat + fb.toNat)] :=
  congrArg (fun b => [b]) (packDiff_eq fr fg fb)

theorem encode_luma_bytes (magic : BitVec 32) (fg : BitVec 6) (frg fbg : BitVec 4) :
    (encode magic (.luma fg frg fbg)).bytes =
      [BitVec.ofNat 8 (0x80 + fg.toNat), BitVec.ofNat 8 (16 * frg.toNat + fbg.toNat)] :=
  congrArg₂ (fun b c => [b, c]) (packLumaFirst_eq fg) (packLumaSecond_eq frg fbg)

theorem packRun_eq : ∀ n : BitVec 6, packRun n = BitVec.ofNat 8 (0xC0 + n.toNat) := by decide

theorem encode_run_bytes (magic : BitVec 32) (n : BitVec 6) :
    (encode magic (.run n)).bytes = [BitVec.ofNat 8 (0xC0 + n.toNat)] :=
  congrArg (fun b => [b]) (packRun_eq n)

theorem encode_opRun_bytes (magic : BitVec 32) {n : BitVec 6} (h : n ≠ 0#6) :
    (encode magic (opRun n)).bytes = [BitVec.ofNat 8 (0xBF + n.toNat)] :=
  congrArg (fun b => [b]) (packRun_pred_eq n h)

/-! The fields of two pixels (30 R82; 43 R168): where a delta fits, its field as a byte is the delta plus the bias. -/

/-- A delta that its bias brings into the field can be read back from it: widened, the field is the rebiased delta. -/
theorem setWidth_biased {n : Nat} (hn : n ≤ 8) {bias d : Byte} (h0 : 0 ≤ d.toInt + bias.toNat)
    (h1 : d.toInt + bias.toNat < 2 ^ n) : (biased n bias d).setWidth 8 = d + bias :=
  calc (biased n bias d).setWidth 8 = BitVec.ofInt 8 (biased n bias d).toNat := by simp
    _ = BitVec.ofInt 8 (d.toInt + bias.toNat) := by rw [biased_toNat hn h0 h1]
    _ = d + bias := by simp [BitVec.ofInt_add]

/-- The fields of DIFF are the wrapped deltas plus 2. -/
theorem opDiff_fields {p q : Pixel} (h : diffFits p q = true) : ∃ fr fg fb : BitVec 2,
    opDiff p q = .diff fr fg fb ∧ fr.setWidth 8 = p.r - q.r + 2#8 ∧ fg.setWidth 8 = p.g - q.g + 2#8 ∧
      fb.setWidth 8 = p.b - q.b + 2#8 := by
  have hfield (d : Byte) (hd : -2 ≤ d.toInt ∧ d.toInt ≤ 1) : (biased 2 2#8 d).setWidth 8 = d + 2#8 :=
    setWidth_biased (by decide) (by simp; omega) (by simp; omega)
  obtain ⟨hr, hg, hb⟩ := (diffFits_iff p q).1 h
  exact ⟨_, _, _, rfl, hfield _ hr, hfield _ hg, hfield _ hb⟩

/-- The fields of LUMA are the wrapped green delta plus 32 and the wrapped cross deltas plus 8. -/
theorem opLuma_fields {p q : Pixel} (h : lumaFits p q = true) : ∃ (fg : BitVec 6) (frg fbg : BitVec 4),
    opLuma p q = .luma fg frg fbg ∧ fg.setWidth 8 = p.g - q.g + 32#8 ∧
      frg.setWidth 8 = (p.r - q.r) - (p.g - q.g) + 8#8 ∧ fbg.setWidth 8 = (p.b - q.b) - (p.g - q.g) + 8#8 := by
  have hgreen (d : Byte) (hd : -32 ≤ d.toInt ∧ d.toInt ≤ 31) : (biased 6 32#8 d).setWidth 8 = d + 32#8 :=
    setWidth_biased (by decide) (by simp; omega) (by simp; omega)
  have hcross (d : Byte) (hd : -8 ≤ d.toInt ∧ d.toInt ≤ 7) : (biased 4 8#8 d).setWidth 8 = d + 8#8 :=
    setWidth_biased (by decide) (by simp; omega) (by simp; omega)
  obtain ⟨hg, hrg, hbg⟩ := (lumaFits_iff p q).1 h
  exact ⟨_, _, _, rfl, hgreen _ hg, hcross _ hrg, hcross _ hbg⟩

/-- A field whose widening is a byte has the byte's value. -/
theorem toNat_of_setWidth_eq {n : Nat} (hn : n ≤ 8) {f : BitVec n} {b : Byte} (h : f.setWidth 8 = b) :
    f.toNat = b.toNat := by
  rw [← h, BitVec.toNat_setWidth_of_le hn]

/-! What a chunk means to a reader (44 R184 to R191). -/

/-- The deltas added back to the previous pixel give the current one (44 R187). -/
theorem diffPixel_of_fields {p q : Pixel} {fr fg fb : BitVec 2} (ha : p.a = q.a)
    (hr : fr.setWidth 8 = p.r - q.r + 2#8) (hg : fg.setWidth 8 = p.g - q.g + 2#8)
    (hb : fb.setWidth 8 = p.b - q.b + 2#8) : diffPixel q fr fg fb = p := by
  simp [diffPixel, add8, sub8, hr, hg, hb, ← ha]

/-- The green delta and the cross deltas added back to the previous pixel give the current one (44 R188). -/
theorem lumaPixel_of_fields {p q : Pixel} {fg : BitVec 6} {frg fbg : BitVec 4} (ha : p.a = q.a)
    (hg : fg.setWidth 8 = p.g - q.g + 32#8) (hrg : frg.setWidth 8 = (p.r - q.r) - (p.g - q.g) + 8#8)
    (hbg : fbg.setWidth 8 = (p.b - q.b) - (p.g - q.g) + 8#8) : lumaPixel q fg frg fbg = p := by
  have hback (x y d : Byte) : y + (d + ((x - y) - d + 8#8) - 8#8) = x := by ring
  simp [lumaPixel, add8, sub8, hg, hrg, hbg, hback, ← ha]

section
variable {r : Reader} {p q : Pixel} (channels : Byte) (total : Nat)

theorem readChunk_index {idx : BitVec 6} (h : r.slot idx = some p) :
    readChunk channels total (.index idx) r = some (r.produce p) := by
  simp [readChunk, h]

theorem readChunk_opDiff (ha : p.a = q.a) (hfit : diffFits p q = true) (h : r.dprev = some q) :
    readChunk channels total (opDiff p q) r = some (r.produce p) := by
  obtain ⟨fr, fg, fb, hop, hr, hg, hb⟩ := opDiff_fields hfit
  simp [hop, readChunk, h, diffPixel_of_fields ha hr hg hb]

theorem readChunk_opLuma (ha : p.a = q.a) (hfit : lumaFits p q = true) (h : r.dprev = some q) :
    readChunk channels total (opLuma p q) r = some (r.produce p) := by
  obtain ⟨fg, frg, fbg, hop, hg, hrg, hbg⟩ := opLuma_fields hfit
  simp [hop, readChunk, h, lumaPixel_of_fields ha hg hrg hbg]

/-- A run of at least 1 that the image has room for. -/
theorem readChunk_opRun {n : BitVec 6} (hn : 1 ≤ n.toNat) (h : r.dprev = some q)
    (hroom : r.outpx.length + n.toNat ≤ total) :
    readChunk channels total (opRun n) r = some { r with outpx := r.outpx ++ List.replicate n.toNat q } := by
  have hlen : (n - 1#6).toNat + 1 = n.toNat := by bv_omega
  simp only [opRun, readChunk, h, hlen, hroom, if_true]

end

/-! The obligations about the chunk operations. -/

/-- Settles O9: Emit alone, which does not read PIX, on an encoding as long as the row says. -/
theorem chunkOperationsOnlyAppend : Obligations.ChunkOperationsOnlyAppend := by
  unfold Obligations.ChunkOperationsOnlyAppend
  intro magic i s hi
  refine ⟨_, exec_chunk i hi magic s, emitted_emitAll s _, onlyOutputChanged_emitAll s _,
    encode_chunk_length magic hi, one_le_byteLength_of_isChunk hi, fun m => ?_⟩
  rw [exec_chunk i hi magic, emitAll_withPix]

/-- Settles O10: the tag of INDEX is 00, so its byte is the slot number. -/
theorem indexAppendsSlotNumber : Obligations.IndexAppendsSlotNumber := by
  unfold Obligations.IndexAppendsSlotNumber
  intro idx s
  obtain ⟨t, hexec, hemitted, hframe⟩ := exec_chunk_appends rfl (encode_index_bytes 0#32 idx) s
  exact ⟨t, hexec, hemitted, hframe, fun channels total r p h => readChunk_index channels total h⟩

/-- Settles O11: no bit of a rebiased delta that fits is lost in its field. -/
theorem diffAppendsBiasedDeltas : Obligations.DiffAppendsBiasedDeltas := by
  unfold Obligations.DiffAppendsBiasedDeltas
  refine ⟨fun fr fg fb s => exec_chunk_appends rfl (encode_diff_bytes 0#32 fr fg fb) s, fun p q s ha hfit => ?_⟩
  obtain ⟨fr, fg, fb, hop, hr, hg, hb⟩ := opDiff_fields hfit
  have hbytes := encode_diff_bytes 0#32 fr fg fb
  rw [toNat_of_setWidth_eq (by decide) hr, toNat_of_setWidth_eq (by decide) hg, toNat_of_setWidth_eq (by decide) hb,
    ← hop] at hbytes
  obtain ⟨t, hexec, hemitted, hframe⟩ := exec_chunk_appends rfl hbytes s
  exact ⟨t, hexec, hemitted, hframe, fun channels total r h => readChunk_opDiff channels total ha hfit h⟩

/-- Settles O12: no bit of a rebiased delta that fits is lost in its field. -/
theorem lumaAppendsBiasedDeltas : Obligations.LumaAppendsBiasedDeltas := by
  unfold Obligations.LumaAppendsBiasedDeltas
  refine ⟨fun fg frg fbg s => exec_chunk_appends rfl (encode_luma_bytes 0#32 fg frg fbg) s, fun p q s ha hfit => ?_⟩
  obtain ⟨fg, frg, fbg, hop, hg, hrg, hbg⟩ := opLuma_fields hfit
  have hbytes := encode_luma_bytes 0#32 fg frg fbg
  rw [toNat_of_setWidth_eq (by decide) hg, toNat_of_setWidth_eq (by decide) hrg,
    toNat_of_setWidth_eq (by decide) hbg, ← hop] at hbytes
  obtain ⟨t, hexec, hemitted, hframe⟩ := exec_chunk_appends rfl hbytes s
  exact ⟨t, hexec, hemitted, hframe, fun channels total r h => readChunk_opLuma channels total ha hfit h⟩

/-- Settles O13: the stored field is the length less one, which the reader adds again. -/
theorem runAppendsLengthMinusOne : Obligations.RunAppendsLengthMinusOne := by
  unfold Obligations.RunAppendsLengthMinusOne
  refine ⟨fun n s _ => exec_chunk_appends rfl (encode_run_bytes 0#32 n) s, fun n s hpos _ => ?_⟩
  have hne : n ≠ 0#6 := fun h0 => by simp [h0] at hpos
  obtain ⟨t, hexec, hemitted, hframe⟩ := exec_chunk_appends rfl (encode_opRun_bytes 0#32 hne) s
  exact ⟨t, hexec, hemitted, hframe, fun channels total r q h hroom => readChunk_opRun channels total hpos h hroom⟩

/-- Settles O14: a pixel of alpha 0 is the one the reader of a 3-channel image makes of its three channels. -/
theorem rgbAppendsMarkerAndChannels : Obligations.RgbAppendsMarkerAndChannels := by
  unfold Obligations.RgbAppendsMarkerAndChannels
  intro p s
  obtain ⟨t, hexec, hemitted, hframe⟩ := exec_chunk_appends (i := opRgb p) rfl rfl s
  exact ⟨t, hexec, hemitted, hframe, rfl, fun ha total r => by simp [opRgb, readChunk, ← ha]⟩

/-- Settles O15: the reader of a 4-channel image makes the pixel of its four channels. -/
theorem rgbaAppendsMarkerAndChannels : Obligations.RgbaAppendsMarkerAndChannels := by
  unfold Obligations.RgbaAppendsMarkerAndChannels
  intro p s
  obtain ⟨t, hexec, hemitted, hframe⟩ := exec_chunk_appends (i := opRgba p) rfl rfl s
  exact ⟨t, hexec, hemitted, hframe, rfl, fun total r => rfl⟩

end Sys2Proof.Machine

/-! How long an encode takes (70_reset_and_hazards R241): the START step, a PIXEL step a pixel, the FINISH step. -/

namespace Sys2Proof.Machine

/-- A run goes on from where a shorter one has come. -/
theorem core_run_add {s t : State} {j : Nat} (h : core.run j s = .next t) (k : Nat) :
    core.run (j + k) s = core.run k t := by
  induction j generalizing s with
  | zero => cases h; rw [Nat.zero_add]
  | succ j ih =>
    simp only [Host.Core.run] at h
    split at h
    · next u hstep => rw [Nat.succ_add, core_run_succ hstep, ih h]
    · cases h
    · cases h

/-! What the launch premises give (70 R246). -/

/-- Every byte of a readable buffer is fetched (20 R53, R65). -/
theorem pixByte_of_readable {s : State} (h : s.pixReadable) {k : Nat} (hk : k < s.bufferLength) :
    ∃ v, pixByte s k = .ok v := by
  obtain ⟨haddr, hread⟩ := h k hk
  obtain ⟨v, hv⟩ := Option.isSome_iff_exists.1 hread
  exact ⟨v, (pixByte_eq_ok s k v).2 ⟨haddr, hv⟩⟩

/-- A validated descriptor has 3 or 4 channels (40 R103). -/
theorem channels_of_validation {s : State} (h : s.validation = 0#8) : s.channels = 3#8 ∨ s.channels = 4#8 := by
  obtain ⟨-, -, -, -, hvalid, -⟩ := validationReportsFirstViolation s.src s.width s.height s.channels s.colorspace
  obtain ⟨-, -, -, hchannels, -⟩ := hvalid.1 h
  exact hchannels

/-- The bytes of pixel `i` lie in the buffer (20 R51, R53). -/
theorem pixelByte_lt_bufferLength {s : State} {i b : Nat} (hi : i < s.pixels) (hb : b < s.channels.toNat) :
    s.channels.toNat * i + b < s.bufferLength :=
  calc s.channels.toNat * i + b < s.channels.toNat * (i + 1) := by rw [Nat.mul_succ]; omega
    _ ≤ s.channels.toNat * s.pixels := Nat.mul_le_mul_left _ hi
    _ = s.bufferLength := Nat.mul_comm ..

/-- Every pixel of a readable buffer is fetched (20 R54, R65). -/
theorem fetchPixel_of_readable {s : State} (hv : s.validation = 0#8) (h : s.pixReadable) {i : Nat}
    (hi : i < s.pixels) : ∃ p, fetchPixel s i = .ok p := by
  have hbyte (b : Nat) (hb : b < s.channels.toNat) : ∃ v, pixByte s (s.channels.toNat * i + b) = .ok v :=
    pixByte_of_readable h (pixelByte_lt_bufferLength hi hb)
  have hchannels := channels_of_validation hv
  have hthree : 3 ≤ s.channels.toNat := by rcases hchannels with hc | hc <;> simp [hc]
  obtain ⟨r, hr⟩ := hbyte 0 (by omega)
  obtain ⟨g, hg⟩ := hbyte 1 (by omega)
  obtain ⟨b, hb⟩ := hbyte 2 (by omega)
  rcases hchannels with hc | hc
  · exact ⟨⟨r, g, b, 0#8⟩, (fetchPixel_eq_ok s i _).2 ⟨hr, hg, hb, by simp [hc]⟩⟩
  · obtain ⟨a, ha⟩ := hbyte 3 (by simp [hc])
    exact ⟨⟨r, g, b, a⟩, (fetchPixel_eq_ok s i _).2 ⟨hr, hg, hb, by simpa [hc] using ha⟩⟩

/-! The START step of a pending START (40 R107). -/

/-- The step that takes a pending START is StartStep, in the state without that move. -/
theorem step_of_startPending {s : State} (h : s.startPending) : step s = execStart { s with moves := [] } := by
  obtain ⟨hmoves, hlevels, hready⟩ := h
  rw [step_write_ctrl_of_set hmoves rfl, State.sinkTick_of_nil s hlevels, offered_ready _ _ _ hready]
  rfl

/-! The walk of an undisturbed block. -/

/-- An undisturbed encode of `n` readable pixels that has taken `i` of them. -/
structure WalkingAt (n i : Nat) (s : State) : Prop where
  quiet : s.undisturbed
  walk : s.phase = .walk
  validated : s.validation = 0#8
  readable : s.pixReadable
  pixels : s.pixels = n
  index : s.pixIdx.toNat = i
  noError : s.err = 0#8

/-- The START step on a valid descriptor and a readable buffer leaves the block before its first pixel. -/
theorem step_start {s : State} (hs : s.startPending) (hphase : s.phase ≠ .walk) (hv : s.validation = 0#8)
    (hr : s.pixReadable) : ∃ t, step s = .next t ∧ WalkingAt s.pixels 0 t := by
  have ⟨_, hlevels, hready⟩ := hs
  exact ⟨_, (step_of_startPending hs).trans (execStart_eq_started hphase hv), {
    quiet := by simp [State.undisturbed, State.started, hlevels, hready]
    walk := rfl
    validated := by simpa [State.validation, State.started] using hv
    readable := by simpa [State.pixReadable, State.bufferLength, State.pixels, State.started] using hr
    pixels := by simp [State.pixels, State.started]
    index := by simp [State.started]
    noError := by simp [State.started] }⟩

/-- The PIXEL step takes the next pixel; PIX_IDX does not wrap (10 R33; 42 R141). -/
theorem WalkingAt.step_pixel {n i : Nat} {s : State} (h : WalkingAt n i s) (hi : i < n) :
    ∃ t, step s = .next t ∧ WalkingAt n (i + 1) t := by
  obtain ⟨hquiet, hwalk, hv, hr, rfl, rfl, herr⟩ := h
  obtain ⟨p, hp⟩ := fetchPixel_of_readable hv hr hi
  have hbound := pixels_lt s
  exact ⟨_, step_of_atPixel ⟨hquiet, hwalk, hi, hp⟩, {
    quiet := by simpa [State.undisturbed] using hquiet
    walk := by simpa using hwalk
    validated := by simpa [State.validation] using hv
    readable := by simpa [State.pixReadable, State.bufferLength, State.pixels] using hr
    pixels := by simp [State.pixels]
    index := by rw [State.emitAll_pixIdx, afterPixel_pixIdx]; bv_omega
    noError := by simpa using herr }⟩

/-- As many steps as pixels are left to take, or fewer, are all PIXEL steps. -/
theorem WalkingAt.run_pixels {n i : Nat} {s : State} (h : WalkingAt n i s) (k : Nat) (hk : i + k ≤ n) :
    ∃ t : State, core.run k s = .next t ∧ WalkingAt n (i + k) t := by
  induction k generalizing i s with
  | zero => exact ⟨s, rfl, h⟩
  | succ k ih =>
    obtain ⟨t, hstep, ht⟩ := h.step_pixel (by omega)
    obtain ⟨u, hrun, hu⟩ := ih ht (by omega)
    exact ⟨u, (core_run_succ hstep k).trans hrun, by rwa [Nat.add_right_comm] at hu⟩

/-- After the last pixel the FINISH step ends the encode (42 R153). -/
theorem WalkingAt.step_finish {n : Nat} {s : State} (h : WalkingAt n n s) :
    ∃ t, step s = .next t ∧ t.phase = .done ∧ t.err = 0#8 ∧ t.pixIdx.toNat = n := by
  refine ⟨_, step_of_finish h.quiet h.walk (h.index.trans h.pixels.symm), rfl, ?_, ?_⟩
  · simpa using h.noError
  · simpa using h.index

/-! The whole encode (70 R241). -/

/-- After START and `k` PIXEL steps the block is in WALK with `k` pixels taken. -/
theorem run_start_pixels {s : State} (hs : s.startPending) (hphase : s.phase ≠ .walk) (hv : s.validation = 0#8)
    (hr : s.pixReadable) {k : Nat} (hk : k ≤ s.pixels) :
    ∃ u : State, core.run (k + 1) s = .next u ∧ WalkingAt s.pixels k u := by
  obtain ⟨t, hstart, ht⟩ := step_start hs hphase hv hr
  obtain ⟨u, hrun, hu⟩ := ht.run_pixels k (by omega)
  exact ⟨u, (core_run_succ hstart k).trans hrun, by rwa [Nat.zero_add] at hu⟩

/-- Settles O54: one START step, then the PIXEL steps by induction over the pixels, then FINISH; a START that fails its
validation ends in DONE itself. -/
theorem encodeReachesDoneInExactlyItsSteps : Obligations.EncodeReachesDoneInExactlyItsSteps := by
  unfold Obligations.EncodeReachesDoneInExactlyItsSteps
  refine ⟨fun s hs hphase hv hr => ⟨?_, fun k hpos hk => ?_⟩, fun s hs hphase hv => ?_⟩
  · obtain ⟨u, hrun, hu⟩ := run_start_pixels hs hphase hv hr le_rfl
    obtain ⟨t, hstep, hdone⟩ := hu.step_finish
    rw [Nat.add_comm 1 s.pixels, core_run_add hrun]
    exact ⟨t, core_run_succ hstep 0, hdone⟩
  · obtain ⟨u, hrun, hu⟩ := run_start_pixels hs hphase hv hr (k := k - 1) (by omega)
    exact ⟨u, by rwa [Nat.sub_add_cancel hpos] at hrun, hu.walk⟩
  · have hstart := (step_of_startPending hs).trans (execStart_of_invalid _ hphase hv)
    exact ⟨_, core_run_succ hstart 0, rfl, rfl, rfl⟩

end Sys2Proof.Machine

/-! The encodings (30_encoding): an encoded operation reads back as itself, with whatever bytes follow it, and the
bytes an item was read from are its one encoding. -/

namespace Sys2Proof.Machine

/-! Big-endian words (20 R57). -/

theorem word32_toNat (b0 b1 b2 b3 : Byte) :
    (word32 b0 b1 b2 b3).toNat = ((b0.toNat * 2 ^ 8 + b1.toNat) * 2 ^ 8 + b2.toNat) * 2 ^ 8 + b3.toNat := by
  have happend {n : Nat} (x : BitVec n) (y : Byte) : (x ++ y).toNat = x.toNat * 2 ^ 8 + y.toNat := by
    rw [BitVec.toNat_append, ← Nat.shiftLeft_add_eq_or_of_lt y.isLt, Nat.shiftLeft_eq]
  rw [word32, happend, happend, happend]

theorem wordByte_toNat (w : Word) (k : Nat) : (wordByte w k).toNat = w.toNat / 2 ^ (24 - 8 * k) % 2 ^ 8 := by
  rw [wordByte, BitVec.extractLsb'_toNat, Nat.shiftRight_eq_div_pow]

/-- The four bytes of a word, put together again. -/
theorem word32_wordByte (w : Word) : word32 (wordByte w 0) (wordByte w 1) (wordByte w 2) (wordByte w 3) = w := by
  apply BitVec.eq_of_toNat_eq
  have hw := w.isLt
  simp only [word32_toNat, wordByte_toNat]
  omega

/-- The four bytes that were put together to a word. -/
theorem wordBytes_word32 (b0 b1 b2 b3 : Byte) :
    [wordByte (word32 b0 b1 b2 b3) 0, wordByte (word32 b0 b1 b2 b3) 1, wordByte (word32 b0 b1 b2 b3) 2,
      wordByte (word32 b0 b1 b2 b3) 3] = [b0, b1, b2, b3] := by
  have := b0.isLt
  have := b1.isLt
  have := b2.isLt
  have := b3.isLt
  simp only [List.cons.injEq, and_true, ← BitVec.toNat_inj, wordByte_toNat, word32_toNat]
  omega

/-! Decoding what was encoded. -/

/-- Every chunk is read back, and the bytes after it are left. -/
theorem decodeChunk_encode_append (magic : BitVec 32) {i : Instr} (hc : i.isChunk = true) (hw : i.wf = true)
    (rest : List Byte) : decodeChunk ((encode magic i).bytes ++ rest) = .ok (i, rest) := by
  cases i with
  | hdr | start => cases hc
  | rgb | rgba => rfl
  | index idx =>
    have hread : ∀ idx : BitVec 6, packIndex idx ≠ 0xFE#8 ∧ packIndex idx ≠ 0xFF#8 ∧
      field (packIndex idx) 6 2 = 0b00#2 ∧ field (packIndex idx) 0 6 = idx := by decide
    obtain ⟨hrgb, hrgba, htag, hidx⟩ := hread idx
    simp [encode, OpWord.bytes, decodeChunk, hrgb, hrgba, htag, hidx]
  | diff fr fg fb =>
    have hread : ∀ fr fg fb : BitVec 2, packDiff fr fg fb ≠ 0xFE#8 ∧ packDiff fr fg fb ≠ 0xFF#8 ∧
      field (packDiff fr fg fb) 6 2 = 0b01#2 ∧ field (packDiff fr fg fb) 4 2 = fr ∧
      field (packDiff fr fg fb) 2 2 = fg ∧ field (packDiff fr fg fb) 0 2 = fb := by decide
    obtain ⟨hrgb, hrgba, htag, hr, hg, hb⟩ := hread fr fg fb
    simp [encode, OpWord.bytes, decodeChunk, hrgb, hrgba, htag, hr, hg, hb]
  | luma fg frg fbg =>
    have hread : ∀ fg : BitVec 6, packLumaFirst fg ≠ 0xFE#8 ∧ packLumaFirst fg ≠ 0xFF#8 ∧
      field (packLumaFirst fg) 6 2 = 0b10#2 ∧ field (packLumaFirst fg) 0 6 = fg := by decide
    have hsecond : ∀ frg fbg : BitVec 4, field (packLumaSecond frg fbg) 4 4 = frg ∧
      field (packLumaSecond frg fbg) 0 4 = fbg := by decide
    obtain ⟨hrgb, hrgba, htag, hg⟩ := hread fg
    obtain ⟨hrg, hbg⟩ := hsecond frg fbg
    simp [encode, OpWord.bytes, decodeChunk, hrgb, hrgba, htag, hg, hrg, hbg]
  | run n =>
    have hread : ∀ n : BitVec 6, n.toNat ≤ 61 → packRun n ≠ 0xFE#8 ∧ packRun n ≠ 0xFF#8 ∧
      field (packRun n) 6 2 = 0b11#2 ∧ field (packRun n) 0 6 = n := by decide
    have hn : n.toNat ≤ 61 := by
      simpa [Instr.wf, Instr.runInRange, Instr.headerDimensionsInRange, Instr.headerChannelsInRange,
        Instr.headerColorspaceInRange] using hw
    obtain ⟨hrgb, hrgba, htag, hlength⟩ := hread n hn
    simp [encode, OpWord.bytes, decodeChunk, hrgb, hrgba, htag, hlength]

/-- A header is read back whatever chunks follow it. -/
theorem decodeHeader_packHeader_append (magic w h : Word) (c cs : Byte) (hw : (Instr.hdr w h c cs).wf = true)
    (rest : List Byte) : decodeHeader magic (packHeader magic w h c cs ++ rest) = .ok (.hdr w h c cs) := by
  simp only [Instr.wf, Bool.and_eq_true] at hw
  obtain ⟨⟨⟨-, hdim⟩, hch⟩, hcs⟩ := hw
  simp [packHeader, decodeHeader, word32_wordByte, hdim, hch, hcs]

/-- Settles O1: chunks by their tag and fields, the header by its bytes, START by bit 0. -/
theorem decodeUndoesEncode : Obligations.DecodeUndoesEncode := by
  unfold Obligations.DecodeUndoesEncode
  intro magic i hw
  have hchunk (hc : i.isChunk = true) : (decodeChunk (encode magic i).bytes).map Prod.fst = .ok i := by
    have := decodeChunk_encode_append magic hc hw []
    rw [List.append_nil] at this
    rw [this]
    rfl
  cases i with
  | index | diff | luma | run | rgb | rgba => exact hchunk rfl
  | hdr w h c cs =>
    have := decodeHeader_packHeader_append magic w h c cs hw []
    rwa [List.append_nil] at this
  | start => rfl

/-! Encoding what was decoded. -/

/-- What a chunk was read from: its encoding, and then the bytes that are left. -/
theorem decodeChunk_eq_ok (magic : BitVec 32) {bs rest : List Byte} {i : Instr} (h : decodeChunk bs = .ok (i, rest)) :
    i.isChunk = true ∧ i.wf = true ∧ (encode magic i).bytes ++ rest = bs := by
  have hindex : ∀ b : Byte, field b 6 2 = 0b00#2 → packIndex (field b 0 6) = b := by decide
  have hdiff : ∀ b : Byte, field b 6 2 = 0b01#2 → packDiff (field b 4 2) (field b 2 2) (field b 0 2) = b := by decide
  have hluma : ∀ b : Byte, field b 6 2 = 0b10#2 → packLumaFirst (field b 0 6) = b := by decide
  have hsecond : ∀ b : Byte, packLumaSecond (field b 4 4) (field b 0 4) = b := by decide
  have hrun : ∀ b : Byte, b ≠ 0xFE#8 → b ≠ 0xFF#8 → field b 6 2 ≠ 0b00#2 → field b 6 2 ≠ 0b01#2 →
    field b 6 2 ≠ 0b10#2 → packRun (field b 0 6) = b ∧ (field b 0 6).toNat ≤ 61 := by decide
  cases bs with
  | nil => cases h
  | cons b0 bs =>
    simp only [decodeChunk] at h
    split_ifs at h with hrgb hrgba h00 h01 h10
    · split at h <;> cases h
      subst hrgb
      exact ⟨rfl, rfl, rfl⟩
    · split at h <;> cases h
      subst hrgba
      exact ⟨rfl, rfl, rfl⟩
    · cases h
      exact ⟨rfl, rfl, congrArg (· :: rest) (hindex b0 h00)⟩
    · cases h
      exact ⟨rfl, rfl, congrArg (· :: rest) (hdiff b0 h01)⟩
    · split at h <;> cases h
      next _ b1 => exact ⟨rfl, rfl, congrArg₂ (· :: · :: _) (hluma b0 h10) (hsecond b1)⟩
    · cases h
      obtain ⟨hpack, hle⟩ := hrun b0 hrgb hrgba h00 h01 h10
      exact ⟨rfl, wf_run hle, congrArg (· :: rest) hpack⟩

/-- A header that was read is the packing of the first fourteen bytes, and its operands are in range. -/
theorem decodeHeader_eq_ok {magic : BitVec 32} {bs : List Byte} {i : Instr} (h : decodeHeader magic bs = .ok i) :
    i.wf = true ∧ (encode magic i).bytes = bs.take 14 := by
  unfold decodeHeader at h
  split at h
  · next m0 m1 m2 m3 w0 w1 w2 w3 h0 h1 h2 h3 c cs rest =>
    dsimp only at h
    split_ifs at h with hmagic hdim hch hcs
    cases h
    simp only [Bool.not_eq_true, Bool.not_eq_false'] at hdim hch hcs
    refine ⟨by simp [Instr.wf, Instr.runInRange, hdim, hch, hcs], ?_⟩
    rw [← not_not.1 hmagic]
    have happend := congrArg₂ (· ++ ·) (wordBytes_word32 m0 m1 m2 m3) (congrArg₂ (· ++ ·)
      (wordBytes_word32 w0 w1 w2 w3) (wordBytes_word32 h0 h1 h2 h3))
    exact congrArg (· ++ [c, cs]) happend
  · cases h

/-- Settles O4, from what a chunk and a header were read from. -/
theorem readItemReencodesToItsBytes : Obligations.ReadItemReencodesToItsBytes := by
  unfold Obligations.ReadItemReencodesToItsBytes
  refine ⟨fun magic bs i rest h => ?_, fun magic bs i h => decodeHeader_eq_ok h⟩
  obtain ⟨hchunk, hwf, hbytes⟩ := decodeChunk_eq_ok magic h
  exact ⟨hwf, hchunk, hbytes⟩

/-! The first byte of a chunk (30 R72). -/

/-- The ranges of the first-byte map (30 section 4), chunk by chunk. -/
theorem mnemonic_of_firstByte (magic : BitVec 32) {i : Instr} (hc : i.isChunk = true) (hw : i.wf = true) :
    ∀ b ∈ (encode magic i).bytes.head?, i.mnemonic =
      (if b.toNat ≤ 0x3F then "INDEX" else if b.toNat ≤ 0x7F then "DIFF" else if b.toNat ≤ 0xBF then "LUMA"
        else if b.toNat ≤ 0xFD then "RUN" else if b.toNat = 0xFE then "RGB" else "RGBA") := by
  intro b hb
  cases i with
  | hdr | start => cases hc
  | rgb | rgba => cases hb; rfl
  | index idx =>
    have hrange : ∀ idx : BitVec 6, (packIndex idx).toNat ≤ 0x3F := by decide
    cases hb
    rw [if_pos (hrange idx)]
    rfl
  | diff fr fg fb =>
    have hrange : ∀ fr fg fb : BitVec 2, ¬ (packDiff fr fg fb).toNat ≤ 0x3F ∧ (packDiff fr fg fb).toNat ≤ 0x7F := by
      decide
    cases hb
    rw [if_neg (hrange fr fg fb).1, if_pos (hrange fr fg fb).2]
    rfl
  | luma fg frg fbg =>
    have hrange : ∀ fg : BitVec 6, ¬ (packLumaFirst fg).toNat ≤ 0x3F ∧ ¬ (packLumaFirst fg).toNat ≤ 0x7F ∧
      (packLumaFirst fg).toNat ≤ 0xBF := by decide
    obtain ⟨hindex, hdiff, hluma⟩ := hrange fg
    cases hb
    rw [if_neg hindex, if_neg hdiff, if_pos hluma]
    rfl
  | run n =>
    have hrange : ∀ n : BitVec 6, (Instr.run n).wf = true → ¬ (packRun n).toNat ≤ 0x3F ∧
      ¬ (packRun n).toNat ≤ 0x7F ∧ ¬ (packRun n).toNat ≤ 0xBF ∧ (packRun n).toNat ≤ 0xFD := by decide
    obtain ⟨hindex, hdiff, hluma, hrun⟩ := hrange n hw
    cases hb
    rw [if_neg hindex, if_neg hdiff, if_neg hluma, if_pos hrun]
    rfl

theorem encodedLength_statement (i : Instr) : Laws.EncodedLength.Statement i := by
  cases i with
  | index idx => exact Laws.EncodedLength.index idx
  | diff fr fg fb => exact Laws.EncodedLength.diff fr fg fb
  | luma fg frg fbg => exact Laws.EncodedLength.luma fg frg fbg
  | run n => exact Laws.EncodedLength.run n
  | rgb r g b => exact Laws.EncodedLength.rgb r g b
  | rgba r g b a => exact Laws.EncodedLength.rgba r g b a
  | hdr w h c cs => exact Laws.EncodedLength.hdr w h c cs
  | start => exact Laws.EncodedLength.start

/-- No first byte is illegal, and five bytes are enough for every chunk (30 R85). -/
theorem decodeChunk_of_five_bytes (b0 b1 b2 b3 b4 : Byte) (tail : List Byte) :
    ∃ i rest, decodeChunk (b0 :: b1 :: b2 :: b3 :: b4 :: tail) = .ok (i, rest) := by
  simp only [decodeChunk]
  split_ifs <;> exact ⟨_, _, rfl⟩

/-- Settles O3: some chunk is read, and the bytes it was read from begin with its encoding. -/
theorem everyFirstByteNamesOneChunk : Obligations.EveryFirstByteNamesOneChunk := by
  unfold Obligations.EveryFirstByteNamesOneChunk
  intro b0 b1 b2 b3 b4 tail
  obtain ⟨i, rest, hread⟩ := decodeChunk_of_five_bytes b0 b1 b2 b3 b4 tail
  obtain ⟨hchunk, hwf, hbytes⟩ := decodeChunk_eq_ok 0#32 hread
  have hlength := encode_chunk_length 0#32 hchunk
  have hhead : b0 ∈ (encode 0#32 i).bytes.head? := by
    cases he : (encode 0#32 i).bytes with
    | nil =>
      have hpos := one_le_byteLength_of_isChunk hchunk
      rw [← hlength, he] at hpos
      cases hpos
    | cons b bs =>
      rw [he, List.cons_append] at hbytes
      injection hbytes with hb
      exact congrArg some hb
  refine ⟨i, ?_, hwf, hchunk, ((encodedLength_statement i 0#32).2 hwf hchunk b0 hhead).symm,
    mnemonic_of_firstByte 0#32 hchunk hwf b0 hhead⟩
  rw [hread, ← hbytes, ← hlength, List.drop_left]

/-- Settles O2: the table's words, decoded. -/
theorem writtenOutWordsDecode : Obligations.WrittenOutWordsDecode := by
  unfold Obligations.WrittenOutWordsDecode
  decide
end Sys2Proof.Machine

/-! Arithmetic that can be done in fewer bits (41 section 1; 42 section 2): the hash in six bits, the delta tests on
wrapped bytes, and the obligations about them. -/

namespace Sys2Proof.Machine

/-! The hash (41 section 1). -/

/-- Modulo 64 every term can be cut to six bits first. -/
theorem hash_eq_lowSixBits (p : Pixel) :
    hash p = 3#6 * p.r.setWidth 6 + 5#6 * p.g.setWidth 6 + 7#6 * p.b.setWidth 6 + 11#6 * p.a.setWidth 6 := by
  apply BitVec.eq_of_toNat_eq
  rw [hash_toNat]
  simp only [BitVec.toNat_add, BitVec.toNat_mul, BitVec.toNat_setWidth, BitVec.toNat_ofNat]
  omega

/-- Settles O6: cutting to six bits commutes with sums and products. -/
theorem hashNeedsOnlyLowSixBits : Obligations.HashNeedsOnlyLowSixBits := by
  unfold Obligations.HashNeedsOnlyLowSixBits
  refine ⟨fun p => ?_, fun p q hr hg hb ha => ?_⟩
  · have hle : 6 ≤ 8 := by decide
    simp only [hash_eq_lowSixBits, BitVec.setWidth_add _ _ hle, BitVec.setWidth_mul _ _ hle]
    rfl
  · rw [hash_eq_lowSixBits, hash_eq_lowSixBits, hr, hg, hb, ha]

/-! The delta tests (42 R148, R149). -/

/-- A wrapped difference lies in a range around 0 exactly if, rebiased, it is a small unsigned byte. -/
theorem fitsDiff_iff_unsigned : ∀ d : Byte, (-2 ≤ d.toInt ∧ d.toInt ≤ 1) ↔ (d + 2#8).toNat < 4 := by decide

theorem fitsDiff_iff_mem : ∀ d : Byte, (-2 ≤ d.toInt ∧ d.toInt ≤ 1) ↔ d ∈ [0xFE#8, 0xFF#8, 0x00#8, 0x01#8] := by
  decide

theorem fitsGreen_iff_unsigned : ∀ d : Byte, (-32 ≤ d.toInt ∧ d.toInt ≤ 31) ↔ (d + 32#8).toNat < 64 := by decide

theorem fitsCross_iff_unsigned : ∀ d : Byte, (-8 ≤ d.toInt ∧ d.toInt ≤ 7) ↔ (d + 8#8).toNat < 16 := by decide

/-- Settles O7: each channel's test by the values of its delta byte. -/
theorem diffFitsExactlyFourDeltaBytes : Obligations.DiffFitsExactlyFourDeltaBytes := by
  unfold Obligations.DiffFitsExactlyFourDeltaBytes
  intro p q
  rw [diffFits_iff]
  refine ⟨?_, by simp only [fitsDiff_iff_unsigned]⟩
  simp only [fitsDiff_iff_mem, List.forall_mem_cons, List.not_mem_nil, false_imp_iff, implies_true, and_true]

/-- With dG in -32..31 the unwrapped cross delta lies in -159..160, where no other number of -8..7 wraps to. -/
theorem fitsCross_iff_unwrapped {d g : Byte} (h0 : -32 ≤ g.toInt) (h1 : g.toInt ≤ 31) :
    (-8 ≤ (d - g).toInt ∧ (d - g).toInt ≤ 7) ↔ (-8 ≤ d.toInt - g.toInt ∧ d.toInt - g.toInt ≤ 7) := by
  have hd0 := BitVec.le_toInt d
  have hd1 := BitVec.toInt_lt (x := d)
  rw [BitVec.toInt_sub, Int.bmod_def]
  norm_num at hd0 hd1 ⊢
  split_ifs <;> omega

/-- Settles O8: the tests as unsigned ones, and the cross deltas without wrapping. -/
theorem lumaFitsOnWrappedDeltas : Obligations.LumaFitsOnWrappedDeltas := by
  unfold Obligations.LumaFitsOnWrappedDeltas
  intro p q
  rw [lumaFits_iff]
  refine ⟨by simp only [fitsGreen_iff_unsigned, fitsCross_iff_unsigned], and_congr_right fun hg => ?_⟩
  rw [fitsCross_iff_unwrapped hg.1 hg.2, fitsCross_iff_unwrapped hg.1 hg.2]

end Sys2Proof.Machine

/-! A START that passes validation (40 section 4), and a pixel that cannot be read (20 section 2). -/

namespace Sys2Proof.Machine

theorem onlyEncodeStateChanged_started (s : State) : OnlyEncodeStateChanged s s.started := by
  rw [State.started, State.emitAll_eq]
  exact ⟨rfl, fun _ => rfl⟩

/-- START's next state but for PIX, which it neither reads nor writes. -/
theorem started_withPix (s : State) (m : Memory) :
    ({ s with pix := m } : State).started = { s.started with pix := m } := by
  simp only [State.started, State.emitAll_eq]
  rfl

theorem State.started_workingStateCleared (s : State) : WorkingStateCleared s.started := by
  simp [WorkingStateCleared, State.started]

/-- Settles O20: the descriptor is a valid one, and START leaves it as `State.started`. -/
theorem validStartEmitsHeaderAndWalks : Obligations.ValidStartEmitsHeaderAndWalks := by
  unfold Obligations.ValidStartEmitsHeaderAndWalks
  intro s hphase hsrc hw hh hch hcs
  have hv : s.validation = 0#8 := by
    obtain ⟨-, -, -, -, hvalid, -⟩ := validationReportsFirstViolation s.src s.width s.height s.channels s.colorspace
    exact hvalid.2 ⟨hsrc, hw, hh, hch, hcs⟩
  refine ⟨s.started, execStart_eq_started hphase hv, by simp [State.started], rfl,
    by simp [State.started, headerBytes_length], s.started_out, s.started_workingStateCleared,
    onlyEncodeStateChanged_started s, fun m => ?_⟩
  rw [← started_withPix]
  exact execStart_eq_started (s := { s with pix := m }) hphase hv

/-! A pixel that cannot be read. -/

/-- Why a byte is refused: its address does not exist, or nothing is readable there. -/
theorem pixByte_eq_error {s : State} {k : Nat} {r : Refusal} (h : pixByte s k = .error r) :
    (2 ^ s.config.aw ≤ s.src.toNat + k ∧ r = .pixPastAddressSpace (s.src.toNat + k)) ∨
    (s.src.toNat + k < 2 ^ s.config.aw ∧ s.pix.read (s.src.toNat + k) = none ∧
      r = .pixUnreadable (s.src.toNat + k)) := by
  unfold pixByte at h
  dsimp only at h
  split_ifs at h with hpast
  · cases h
    exact .inl ⟨hpast, rfl⟩
  · split at h
    · cases h
    · next hread =>
      cases h
      exact .inr ⟨by omega, hread, rfl⟩

theorem channels_toNat_bounds {c : Byte} (h : c = 3#8 ∨ c = 4#8) : 3 ≤ c.toNat ∧ c.toNat ≤ 4 := by
  rcases h with rfl | rfl <;> decide

/-- A pixel is refused as its first byte that is refused. -/
theorem fetchPixel_eq_error {s : State} {i : Nat} {r : Refusal} (hc : s.channels = 3#8 ∨ s.channels = 4#8)
    (h : fetchPixel s i = .error r) :
    ∃ k < s.channels.toNat, (∀ j < k, ∃ v, pixByte s (s.channels.toNat * i + j) = .ok v) ∧
      pixByte s (s.channels.toNat * i + k) = .error r := by
  have ⟨hthree, _⟩ := channels_toNat_bounds hc
  unfold fetchPixel at h
  cases h0 : pixByte s (s.channels.toNat * i + 0) with
  | error e =>
    simp only [h0, Except.error.injEq] at h
    exact ⟨0, by omega, by simp, h ▸ h0⟩
  | ok v0 =>
    cases h1 : pixByte s (s.channels.toNat * i + 1) with
    | error e =>
      simp only [h0, h1, Except.error.injEq] at h
      refine ⟨1, by omega, fun j hj => ?_, h ▸ h1⟩
      interval_cases j
      exact ⟨v0, h0⟩
    | ok v1 =>
      cases h2 : pixByte s (s.channels.toNat * i + 2) with
      | error e =>
        simp only [h0, h1, h2, Except.error.injEq] at h
        refine ⟨2, by omega, fun j hj => ?_, h ▸ h2⟩
        interval_cases j
        · exact ⟨v0, h0⟩
        · exact ⟨v1, h1⟩
      | ok v2 =>
        simp only [h0, h1, h2] at h
        split_ifs at h with hfour
        split at h
        · cases h
        · next e h3 =>
          cases h
          refine ⟨3, by simp [hfour], fun j hj => ?_, h3⟩
          interval_cases j
          · exact ⟨v0, h0⟩
          · exact ⟨v1, h1⟩
          · exact ⟨v2, h2⟩

/-- Settles O25: the PIXEL step is refused as its pixel is, at the pixel's first byte that is. -/
theorem unreadablePixelIsRefused : Obligations.UnreadablePixelIsRefused := by
  unfold Obligations.UnreadablePixelIsRefused
  intro s hquiet hwalk hidx hc hnone
  cases hf : fetchPixel s s.pixIdx.toNat with
  | ok p => exact absurd ⟨p, hf⟩ hnone
  | error r =>
    have hstep : step s = .refused r := by
      rw [step_of_undisturbed hquiet, encoderStep_of_pixel s hwalk hidx hquiet.ready, pixelStep, hf]
    obtain ⟨k, hk, hbefore, hbyte⟩ := fetchPixel_eq_error hc hf
    refine ⟨k, hk, hbefore, _, rfl, ?_⟩
    rcases pixByte_eq_error hbyte with ⟨hpast, rfl⟩ | ⟨hin, hread, rfl⟩
    · exact .inl ⟨hpast, hstep⟩
    · exact .inr ⟨hin, hread, hstep⟩

end Sys2Proof.Machine

/-! What the selector picks (42 section 2; 30 section 6; 43 section 6): the ways a pixel is classified, how many bytes a
PIXEL step emits, what a stretch of equal pixels amounts to, and the obligations about them. -/

namespace Sys2Proof.Machine

/-! What the selector can hand over. -/

/-- The chunks a pixel `p` that extends no run can be classified as (42 R142, R146 to R150), each with what its tests
found. A delta chunk stands for the pixel itself. -/
inductive Classified (s : State) (p : Pixel) : Instr → Prop
  | rgb (three : s.channels ≠ 4#8)
      (needed : s.prevValid = true → p.a = s.prev.a → diffFits p s.prev = false ∧ lumaFits p s.prev = false) :
      Classified s p (.rgb p.r p.g p.b)
  | rgba (four : s.channels = 4#8)
      (needed : s.prevValid = true → p.a = s.prev.a → diffFits p s.prev = false ∧ lumaFits p s.prev = false) :
      Classified s p (.rgba p.r p.g p.b p.a)
  | index (hasPrev : s.prevValid = true) (held : lookup s.cache (hash p) = some p) : Classified s p (.index (hash p))
  | diff (fr fg fb : BitVec 2) (hasPrev : s.prevValid = true) (stands : diffPixel s.prev fr fg fb = p) :
      Classified s p (.diff fr fg fb)
  | luma (fg : BitVec 6) (frg fbg : BitVec 4) (hasPrev : s.prevValid = true)
      (stands : lumaPixel s.prev fg frg fbg = p) (noDiff : diffFits p s.prev = false) :
      Classified s p (.luma fg frg fbg)

theorem classified_literal {s : State} {p : Pixel}
    (needed : s.prevValid = true → p.a = s.prev.a → diffFits p s.prev = false ∧ lumaFits p s.prev = false) :
    Classified s p (literal s p) := by
  unfold literal
  split
  · next four => exact .rgba four needed
  · next three => exact .rgb three needed

theorem classified_opDiff {s : State} {p : Pixel} (hprev : s.prevValid = true) (ha : p.a = s.prev.a)
    (hfit : diffFits p s.prev = true) : Classified s p (opDiff p s.prev) := by
  obtain ⟨fr, fg, fb, hop, hr, hg, hb⟩ := opDiff_fields hfit
  rw [hop]
  exact .diff fr fg fb hprev (diffPixel_of_fields ha hr hg hb)

theorem classified_opLuma {s : State} {p : Pixel} (hprev : s.prevValid = true) (ha : p.a = s.prev.a)
    (hnodiff : diffFits p s.prev = false) (hfit : lumaFits p s.prev = true) : Classified s p (opLuma p s.prev) := by
  obtain ⟨fg, frg, fbg, hop, hg, hrg, hbg⟩ := opLuma_fields hfit
  rw [hop]
  exact .luma fg frg fbg hprev (lumaPixel_of_fields ha hg hrg hbg) hnodiff

/-- The tests in the order of 42 R152. -/
theorem classify_classified (s : State) (p : Pixel) : Classified s p (classify s p) := by
  cases hprev : s.prevValid with
  | false =>
    rw [classify_of_noPrev hprev]
    exact classified_literal fun h => by simp [hprev] at h
  | true =>
    by_cases hhit : lookup s.cache (hash p) = some p
    · rw [classify_of_hit hprev hhit]
      exact .index hprev hhit
    by_cases hdiff : p.a = s.prev.a ∧ diffFits p s.prev = true
    · rw [classify_of_diffFits hprev hhit hdiff.1 hdiff.2]
      exact classified_opDiff hprev hdiff.1 hdiff.2
    by_cases hluma : p.a = s.prev.a ∧ lumaFits p s.prev = true
    · have hnodiff : diffFits p s.prev = false := Bool.eq_false_of_not_eq_true fun h => hdiff ⟨hluma.1, h⟩
      rw [classify_of_lumaFits hprev hhit hluma.1 hnodiff hluma.2]
      exact classified_opLuma hprev hluma.1 hnodiff hluma.2
    · rw [classify_of_noMatch hprev hhit hdiff hluma]
      exact classified_literal fun _ ha => ⟨Bool.eq_false_of_not_eq_true fun h => hdiff ⟨ha, h⟩,
        Bool.eq_false_of_not_eq_true fun h => hluma ⟨ha, h⟩⟩

/-- What is handed over for a pixel is a RUN, or the chunk of a pixel that extends no run. -/
theorem mem_selected {s : State} {p : Pixel} {i : Instr} (h : i ∈ selected s p) :
    (∃ n, i = .run n) ∨ (continuesRun s p = false ∧ i = classify s p) := by
  unfold selected at h
  split_ifs at h with hrun hcap
  · exact .inl ⟨_, List.mem_singleton.1 h⟩
  · cases h
  · rcases List.mem_append.1 h with h | h
    · unfold flushed at h
      split_ifs at h
      · cases h
      · exact .inl ⟨_, List.mem_singleton.1 h⟩
    · exact .inr ⟨Bool.eq_false_of_not_eq_true hrun, List.mem_singleton.1 h⟩

theorem mem_selected_of_ne_run {s : State} {p : Pixel} {i : Instr} (h : i ∈ selected s p) (hne : ∀ n, i ≠ .run n) :
    continuesRun s p = false ∧ Classified s p i :=
  (mem_selected h).elim (fun ⟨n, hn⟩ => absurd hn (hne n)) fun ⟨hnew, hi⟩ => ⟨hnew, hi ▸ classify_classified s p⟩

/-- The previous pixel of a pixel that extends no run is another one. -/
theorem ne_prev_of_new {s : State} {p : Pixel} (hprev : s.prevValid = true) (hnew : continuesRun s p = false) :
    p ≠ s.prev := fun heq => by simp [(continuesRun_iff s p).2 ⟨hprev, heq⟩] at hnew

/-! RUN after RUN (30 section 6, item 8). -/

/-- Of two RUN chunks in a row the first one is full. -/
def FullBeforeRun (i j : Instr) : Prop := ∀ a b : BitVec 6, i = .run a → j = .run b → a = 61#6

/-- What comes last for a pixel is a full RUN, or no RUN at all. -/
theorem fullBeforeRun_of_last_selected (s : State) (p : Pixel) :
    ∀ i ∈ (selected s p).getLast?, ∀ j, FullBeforeRun i j := by
  intro i hi j a b ha hb
  unfold selected at hi
  split_ifs at hi
  · cases hi
    cases ha
    rfl
  · cases hi
  · rw [List.getLast?_concat] at hi
    cases hi
    exact absurd ha (classify_ne_run s p a)

theorem flushed_isChain (s : State) : (flushed s).IsChain FullBeforeRun := by
  unfold flushed
  split
  · exact .nil
  · exact .singleton _

/-- A run that is flushed for a new pixel is followed by that pixel's chunk. -/
theorem selected_isChain (s : State) (p : Pixel) : (selected s p).IsChain FullBeforeRun := by
  unfold selected
  split_ifs
  · exact .singleton _
  · exact .nil
  · refine (flushed_isChain s).append (.singleton _) fun i _ j hj a b ha hb => ?_
    cases hj
    exact absurd hb (classify_ne_run s p b)

theorem chunksFrom_isChain (n : Nat) (s : State) : (chunksFrom n s).IsChain FullBeforeRun := by
  induction n generalizing s with
  | zero => exact flushed_isChain s
  | succ n ih =>
    unfold chunksFrom
    split
    · next p _ =>
      exact (selected_isChain s p).append (ih _) fun i hi j _ => fullBeforeRun_of_last_selected s p i hi j
    · exact .nil

/-- Settles O36: each item from what the pixel was classified as; item 8 over all neighbours in the list of chunks. -/
theorem selectorNeverPicksWastefulChunk : Obligations.SelectorNeverPicksWastefulChunk := by
  unfold Obligations.SelectorNeverPicksWastefulChunk
  refine ⟨fun s p => ⟨fun hnone hrun => ?_, fun r g b h => ?_, fun r g b a h => ?_, fun h => ?_, fun fg frg fbg h => ?_,
    fun idx h => ?_, fun hprev hhit i h => ?_, fun hprev ha hfit i h => ?_⟩, fun n s before after a b h => ?_⟩
  · simp [selected, continuesRun_of_noPrev hnone, flushed, hrun, classify_of_noPrev hnone]
  · cases (mem_selected_of_ne_run h nofun).2 with
    | rgb three => exact three
  · cases (mem_selected_of_ne_run h nofun).2 with
    | rgba four => exact four
  · obtain ⟨hnew, hc⟩ := mem_selected_of_ne_run h nofun
    have hsame (q : Pixel) : diffPixel q 2#2 2#2 2#2 = q := by simp [diffPixel, add8, sub8]
    cases hc with
    | diff _ _ _ hasPrev stands => exact ne_prev_of_new hasPrev hnew (stands.symm.trans (hsame s.prev))
  · cases (mem_selected_of_ne_run h nofun).2 with
    | luma _ _ _ _ stands noDiff => exact ⟨stands, stands.symm ▸ noDiff⟩
  · obtain ⟨hnew, hc⟩ := mem_selected_of_ne_run h nofun
    cases hc with
    | index hasPrev held => exact ⟨held, ne_prev_of_new hasPrev hnew⟩
  · rcases mem_selected h with ⟨n, rfl⟩ | ⟨-, rfl⟩
    · exact .inr rfl
    · rw [classify_of_hit hprev hhit]
      exact .inl rfl
  · rcases mem_selected h with ⟨n, rfl⟩ | ⟨-, rfl⟩
    · simp [Instr.mnemonic]
    · have hc := classify_classified s p
      generalize classify s p = i at hc ⊢
      cases hc with
      | rgb _ needed | rgba _ needed => simp [needed hprev ha] at hfit
      | index | diff | luma => simp [Instr.mnemonic]
  · have hchain := chunksFrom_isChain n s
    rw [h] at hchain
    exact (List.isChain_append_cons_cons.1 hchain).2.1 a b rfl rfl

/-! How many bytes a PIXEL step emits (43 section 6). -/

/-- No chunk of a pixel is longer than the image's literal. -/
theorem classify_byteLength_le (s : State) (p : Pixel) :
    (classify s p).byteLength ≤ if s.channels = 4#8 then 5 else 4 := by
  have hc := classify_classified s p
  generalize classify s p = i at hc ⊢
  cases hc with
  | rgb three => rw [if_neg three]; exact le_rfl
  | rgba four => rw [if_pos four]; exact le_rfl
  | index | diff | luma => split <;> simp [Instr.byteLength]

theorem one_le_classify_byteLength (s : State) (p : Pixel) : 1 ≤ (classify s p).byteLength :=
  one_le_byteLength_of_isChunk (classify_isChunk s p)

/-- A pixel that extends a run emits a byte at the cap alone. -/
theorem selectedBytes_length_of_run {s : State} {p : Pixel} (h : continuesRun s p = true) :
    (selectedBytes s p).length = if s.run = 61#6 then 1 else 0 := by
  rw [selectedBytes_of_run h]
  split <;> rfl

/-- Any other pixel emits the byte of a pending run, and its chunk. -/
theorem selectedBytes_length_of_new {s : State} {p : Pixel} (h : continuesRun s p = false) :
    (selectedBytes s p).length = (if s.run = 0#6 then 0 else 1) + (classify s p).byteLength := by
  rw [selectedBytes_of_new h, List.length_append, encode_chunk_length 0#32 (classify_isChunk s p)]
  split <;> rfl

/-- Settles O37: at most one byte for a pending run, and the pixel's chunk. -/
theorem pixelStepEmitsAtMostSixBytes : Obligations.PixelStepEmitsAtMostSixBytes := by
  unfold Obligations.PixelStepEmitsAtMostSixBytes
  intro s p h
  refine ⟨_, selectedBytes s p, step_of_atPixel h, emitted_afterPixel s p _, ?_⟩
  rw [← continuesRun_iff]
  cases hrun : continuesRun s p with
  | true =>
    rw [selectedBytes_length_of_run hrun]
    split <;> simp
  | false =>
    have hupper := classify_byteLength_le s p
    have hlower := one_le_classify_byteLength s p
    rw [selectedBytes_length_of_new hrun]
    refine ⟨?_, fun hnone => ?_, fun hthree => ?_, nofun, fun _ => ?_⟩
    · split_ifs at hupper ⊢ <;> omega
    · rw [if_pos hnone]; split_ifs at hupper <;> omega
    · rw [if_neg hthree] at hupper; split <;> omega
    · omega

/-! A stretch of equal pixels (42 section 2). -/

theorem Emitted.trans {s t u : State} {bs cs : List Byte} (hst : Emitted s t bs) (htu : Emitted t u cs) :
    Emitted s u (bs ++ cs) := by
  obtain ⟨hout, hlen⟩ := hst
  obtain ⟨hout', hlen'⟩ := htu
  exact ⟨by rw [hout', hout, List.append_assoc],
    by rw [hlen', hlen, List.length_append, BitVec.ofNat_add, BitVec.add_assoc]⟩

theorem pixelStep_of_fetch {s : State} {p : Pixel} (h : fetchPixel s s.pixIdx.toNat = .ok p) :
    pixelStep s = .next ((afterPixel s p).emitAll (selectedBytes s p)) := by
  rw [pixelStep, h, ← afterPixel_emitAll]
  exact pixelStepOn_eq s p

theorem walkPixels_succ {s t : State} (h : pixelStep s = .next t) (n : Nat) :
    walkPixels (n + 1) s = walkPixels n t := by
  rw [walkPixels, h]

/-- A PIXEL step does not change where pixels are read from. -/
theorem fetchPixel_afterPixel (s : State) (p : Pixel) (bs : List Byte) (i : Nat) :
    fetchPixel ((afterPixel s p).emitAll bs) i = fetchPixel s i :=
  fetchPixel_congr _ _ _ (by simp) (by simp) (by simp) (by simp)

/-- The PIXEL step of a pixel equal to PREV: RUN counts it, and 62 goes out at once (42 R143, R144). -/
theorem pixelStep_of_equal {s : State} (hprev : s.prevValid = true) (hidx : s.pixIdx.toNat + 1 < 2 ^ 64)
    (hfetch : fetchPixel s s.pixIdx.toNat = .ok s.prev) :
    ∃ t, pixelStep s = .next t ∧ Emitted s t (if s.run = 61#6 then [0xFD#8] else []) ∧
      t.run = (if s.run = 61#6 then 0#6 else s.run + 1#6) ∧ t.pixIdx.toNat = s.pixIdx.toNat + 1 ∧
      t.cache = s.cache ∧ t.prev = s.prev ∧ t.prevValid = true ∧ ∀ i, fetchPixel t i = fetchPixel s i := by
  have hcont : continuesRun s s.prev = true := (continuesRun_iff s s.prev).2 ⟨hprev, rfl⟩
  have hafter := afterPixel_of_run s s.prev hcont
  refine ⟨_, pixelStep_of_fetch hfetch, selectedBytes_of_run hcont ▸ emitted_afterPixel s s.prev _, ?_, ?_, ?_, ?_, ?_,
    fetchPixel_afterPixel s s.prev _⟩
  · simp [hafter, runAfter_eq]
  · rw [State.emitAll_pixIdx, afterPixel_pixIdx]
    bv_omega
  · simp [hafter]
  · simp [hafter]
  · simp [hafter, hprev]

/-- `k` pixels equal to PREV count on from the pending run: full chunks go out, the rest stays pending. -/
theorem walkPixels_of_equal (k : Nat) {s : State} (hprev : s.prevValid = true) (hrun : s.run.toNat ≤ 61)
    (hidx : s.pixIdx.toNat + k < 2 ^ 64) (hfetch : ∀ j < k, fetchPixel s (s.pixIdx.toNat + j) = .ok s.prev) :
    ∃ t, walkPixels k s = .next t ∧ Emitted s t (List.replicate ((s.run.toNat + k) / 62) 0xFD#8) ∧
      t.run.toNat = (s.run.toNat + k) % 62 ∧ t.pixIdx.toNat = s.pixIdx.toNat + k ∧ t.cache = s.cache ∧
      t.prev = s.prev ∧ t.prevValid = true := by
  induction k generalizing s with
  | zero =>
    refine ⟨s, rfl, ?_, by omega, rfl, rfl, rfl, hprev⟩
    rw [Nat.div_eq_of_lt (by omega)]
    simp [Emitted]
  | succ k ih =>
    obtain ⟨t, hstep, hemit, htrun, htidx, htcache, htprev, htvalid, htfetch⟩ :=
      pixelStep_of_equal hprev (by omega) (hfetch 0 (by omega))
    have htfetch' (j : Nat) (hj : j < k) : fetchPixel t (t.pixIdx.toNat + j) = .ok t.prev := by
      rw [htfetch, htprev, htidx, Nat.add_assoc, Nat.add_comm 1]
      exact hfetch (j + 1) (by omega)
    have htle : t.run.toNat ≤ 61 := by rw [htrun]; split_ifs <;> bv_omega
    obtain ⟨u, hwalk, hemit', hurun, huidx, hucache, huprev, huvalid⟩ := ih htvalid htle (by omega) htfetch'
    refine ⟨u, (walkPixels_succ hstep k).trans hwalk, ?_, ?_, by omega, hucache.trans htcache, huprev.trans htprev,
      huvalid⟩
    · convert hemit.trans hemit' using 1
      rw [htrun]
      split_ifs with hcap
      · have hcount : (61 + (k + 1)) / 62 = k / 62 + 1 := by omega
        simp [hcap, hcount, List.replicate_succ]
      · have hnext : (s.run + 1#6).toNat = s.run.toNat + 1 := by bv_omega
        rw [hnext, List.nil_append, Nat.add_right_comm, Nat.add_assoc]
    · rw [hurun, htrun]
      split_ifs with hcap
      · simp [hcap]; omega
      · have hnext : (s.run + 1#6).toNat = s.run.toNat + 1 := by bv_omega
        rw [hnext, Nat.add_right_comm, Nat.add_assoc]

/-- Settles O28: a stretch that begins with no run pending. -/
theorem stretchOfEqualPixels : Obligations.StretchOfEqualPixels := by
  unfold Obligations.StretchOfEqualPixels
  intro k s hprev hrun hidx hfetch
  have hzero : s.run.toNat = 0 := by rw [hrun]; rfl
  have hwalk := walkPixels_of_equal k hprev (by omega) hidx hfetch
  rwa [hzero, Nat.zero_add] at hwalk

end Sys2Proof.Machine

/-! One step of the whole machine (42 section 1; 10; 20; 70): which operation it runs, what it can change, what a sink
that is not ready delays, and the obligations about them. -/

namespace Sys2Proof.Machine

/-! The operation a step runs. -/

section
variable {s : State} {rest : List Move}

/-- A bench move is executed, once the sink is ready for what it emits (log 2). -/
theorem step_op {w : OpWord} {i : Instr} (h : s.moves = .op w :: rest) (hd : decodeOp s.config.magic w = .ok i) :
    step s = offered (emitsNow i { s.sinkTick with moves := rest }) s.sinkTick
      (exec i { s.sinkTick with moves := rest }) := by
  rw [step_of_move h, doMove, command]
  simp only [State.sinkTick_config, hd]

/-- A word with bit 0 set is the one CTRL word that is an operation (10 R25). -/
theorem decodeCtrl_eq_ok {w : Word} {i : Instr} (h : decodeCtrl w = .ok i) : w.getLsbD 0 = true ∧ i = .start := by
  unfold decodeCtrl at h
  split at h
  · next hbit => cases h; exact ⟨hbit, rfl⟩
  · cases h

/-- The sink is ready for the word that `withFetchWord` places. -/
theorem sinkTick_withFetchWord (s : State) (nbits w : Nat) :
    (s.withFetchWord nbits w).sinkTick.sinkReady = true ∧
      { (s.withFetchWord nbits w).sinkTick with moves := s.moves } = { s with sinkReady := true } :=
  ⟨rfl, rfl⟩

theorem step_withFetchWord {nbits w : Nat} {i : Instr} (h : decodeOp s.config.magic (tableOp nbits w) = .ok i) :
    step (s.withFetchWord nbits w) = exec i { s with sinkReady := true } := by
  obtain ⟨hready, hstate⟩ := sinkTick_withFetchWord s nbits w
  rw [← hstate]
  cases hop : tableOp nbits w with
  | ctrl word =>
    rw [hop] at h
    obtain ⟨hbit, rfl⟩ := decodeCtrl_eq_ok h
    have hmoves : (s.withFetchWord nbits w).moves = .write .word 0x00 word :: s.moves := by
      simp only [State.withFetchWord, hop]
    rw [step_write_ctrl_of_set hmoves hbit, offered_ready _ _ _ hready]
  | header bs | chunk bs =>
    have hmoves : (s.withFetchWord nbits w).moves = .op (tableOp nbits w) :: s.moves := by
      simp only [State.withFetchWord, hop]
    rw [step_op hmoves h, offered_ready _ _ _ hready]

end

/-- Settles O38: a bench move, the word of `withFetchWord`, and the encoder's step. -/
theorem stepRunsTheDecodedOperation : Obligations.StepRunsTheDecodedOperation := by
  unfold Obligations.StepRunsTheDecodedOperation
  refine ⟨fun s w rest i hm hd _ hready => ?_, fun s nbits w i hd => step_withFetchWord hd, fun s hquiet =>
    ⟨fun hphase => ?_, fun hwalk hidx => ?_, fun hwalk hidx => ?_⟩⟩
  · rw [step_op hm hd, offered_ready _ _ _ hready]
  · rw [step_of_undisturbed hquiet, encoderStep_of_quiescent s hphase]
  · rw [step_of_undisturbed hquiet, encoderStep_of_pixel s hwalk hidx hquiet.ready]
  · rw [step_of_undisturbed hquiet, encoderStep_of_finish s hwalk hidx hquiet.ready]

/-- Settles O43: the access is refused before its register is looked up. -/
theorem narrowRegisterAccessIsRefused : Obligations.NarrowRegisterAccessIsRefused := by
  unfold Obligations.NarrowRegisterAccessIsRefused
  intro s size offset w rest hnarrow
  refine ⟨fun hm => ?_, fun hm => ?_⟩
  · rw [step_of_move hm, doMove, hostWrite, if_pos hnarrow]
  · rw [step_of_move hm, doMove, hostRead, if_pos hnarrow]

/-- With nothing pending a block outside WALK stays as it is, whatever the sink (42 R140). -/
theorem step_of_quiescent {s : State} (hmoves : s.moves = []) (hlevels : s.sinkLevels = []) (hphase : s.phase ≠ .walk) :
    step s = .next s := by
  simp only [step, nextMove, State.sinkTick_of_nil s hlevels, hmoves]
  exact encoderStep_of_quiescent s hphase

/-- Settles O44: INIT's values, PHASE IDLE, and with it a quiescent encoder. -/
theorem hardwareResetClearsTheBlock : Obligations.HardwareResetClearsTheBlock := by
  unfold Obligations.HardwareResetClearsTheBlock
  intro s rest hm
  refine ⟨_, step_of_move hm, rfl, rfl, rfl, rfl, rfl, ⟨rfl, rfl, rfl, slotAt_emptyCache_valid _⟩, by simp, by simp,
    by simp, ?_⟩
  exact step_of_quiescent rfl rfl nofun

/-! What the encoder and an operation can change. -/

/-- PIX and the parameters of `t` are those of `s`. -/
def SamePixels (s t : State) : Prop := t.pix = s.pix ∧ t.config = s.config

section
variable {s t : State}

theorem encoderStep_keeps_pixels (h : encoderStep s = .next t) : SamePixels s t := by
  rcases encoderStep_cases h with rfl | ⟨-, -, p, -, rfl⟩ | ⟨-, -, rfl⟩ <;> simp [SamePixels]

theorem exec_keeps_pixels {i : Instr} (h : exec i s = .next t) : SamePixels s t := by
  rcases exec_cases h with ⟨-, bs, rfl⟩ | ⟨-, h⟩
  · simp [SamePixels]
  · rcases execStart_cases h with ⟨-, rfl⟩ | ⟨-, -, rfl⟩ | ⟨-, -, rfl⟩ <;> simp [SamePixels]

/-- A register write changes the descriptor at most (10 R24). -/
theorem regWrite_frame (r : Reg) (w : Word) :
    regWrite s r w = { s with
      src := (regWrite s r w).src, width := (regWrite s r w).width, height := (regWrite s r w).height
      channels := (regWrite s r w).channels, colorspace := (regWrite s r w).colorspace } := by
  unfold regWrite
  split_ifs
  · rfl
  · cases r <;> rfl

theorem regWrite_keeps_pixels (r : Reg) (w : Word) : SamePixels s (regWrite s r w) := by
  rw [regWrite_frame]
  exact ⟨rfl, rfl⟩

/-- The address of a host write in WALK lies outside the buffer. -/
theorem inBuffer_eq_false {a : Nat} : inBuffer s a = false ↔ a < s.src.toNat ∨ s.src.toNat + s.bufferLength ≤ a := by
  simp only [inBuffer, decide_eq_false_iff_not]
  omega

@[simp] theorem State.sinkTick_bufferLength (s : State) : s.sinkTick.bufferLength = s.bufferLength := by
  simp [State.bufferLength, State.pixels]

/-- A step keeps PIX and the parameters, or takes a host write to PIX (20 section 9). -/
theorem step_pixels_cases (h : step s = .next t) :
    SamePixels s t ∨
    ∃ a v rest, s.moves = .pixWrite a v :: rest ∧ a < 2 ^ s.config.aw ∧
      (s.phase = .walk → a < s.src.toNat ∨ s.src.toNat + s.bufferLength ≤ a) ∧
      t = { s.sinkTick with moves := rest, pix := s.pix.write a v } := by
  cases step_cases h with
  | encoder rest _ h => exact .inl (by simpa [SamePixels] using encoderStep_keeps_pixels h)
  | commandWaits m rest _ _ _ h => exact .inl (by simp [SamePixels, h])
  | command m rest i _ _ _ _ h => exact .inl (by simpa [SamePixels] using exec_keeps_pixels h)
  | regWrite offset w rest r _ _ _ h =>
    exact .inl (by rw [h]; simpa [SamePixels] using regWrite_keeps_pixels (s := { s.sinkTick with moves := rest }) r w)
  | ignoredWrite offset w rest _ h => exact .inl (by simp [SamePixels, h])
  | read offset rest _ h => exact .inl (by simp [SamePixels, h])
  | pixWrite a v rest pending inSpace outside h =>
    refine .inr ⟨a, v, rest, pending, by simpa using inSpace, fun hwalk => ?_, by simpa using h⟩
    simpa [inBuffer_eq_false] using outside (by simpa using hwalk)
  | reset rest _ h => exact .inl (by simp [SamePixels, h])

/-- What a host write to PIX does in a step (20 R64; log 11, 15). -/
theorem step_pixWrite {a : Nat} {v : Byte} {rest : List Move} (h : s.moves = .pixWrite a v :: rest) :
    step s = if 2 ^ s.config.aw ≤ a then .fault (.pixAddressAbsent a)
      else if s.phase = .walk && inBuffer s a then .refused (.pixChangedDuringEncode a)
      else .next { s.sinkTick with moves := rest, pix := s.pix.write a v } := by
  have hbuffer : inBuffer { s.sinkTick with moves := rest } a = inBuffer s a := by
    unfold State.sinkTick
    split <;> rfl
  rw [step_of_move h, doMove, hostPixWrite, hbuffer]
  simp only [State.sinkTick_config, State.sinkTick_phase, State.sinkTick_pix]

end

/-- Settles O45, from the steps that change PIX and the rule of a host write. -/
theorem pixelMemoryIsTheHostsAlone : Obligations.PixelMemoryIsTheHostsAlone := by
  unfold Obligations.PixelMemoryIsTheHostsAlone
  refine ⟨fun s t h => ?_, fun s a v rest hm => ⟨fun hpast => ?_, fun hin hwalk hlow hhigh => ?_, fun hin hout => ?_⟩⟩
  · rcases step_pixels_cases h with ⟨hpix, -⟩ | ⟨a, v, rest, hm, hin, hout, rfl⟩
    · exact .inl hpix
    · exact .inr ⟨a, v, rest, hm, hin, hout, Memory.read_write_same s.pix a v, fun b => Memory.read_write_other s.pix a b v⟩
  · rw [step_pixWrite hm, if_pos hpast]
  · rw [step_pixWrite hm, if_neg (by omega), if_pos (by simp [hwalk, inBuffer, hlow, hhigh])]
  · rw [step_pixWrite hm, if_neg (by omega), if_neg]
    rw [← inBuffer_eq_false] at hout
    rcases hout with hout | hout <;> simp [hout]

/-- Settles O52: of the steps that change PIX, the host's write keeps its form. -/
theorem stepKeepsMemoryFormAndParameters : Obligations.StepKeepsMemoryFormAndParameters := by
  unfold Obligations.StepKeepsMemoryFormAndParameters
  intro s t h
  rcases step_pixels_cases h with ⟨hpix, hconfig⟩ | ⟨a, v, rest, -, -, -, rfl⟩
  · exact ⟨fun hwf => hpix ▸ hwf, hconfig⟩
  · exact ⟨Memory.write_wf s.pix a v, by simp⟩

/-! What a step does to OUT, ERR and PIX_IDX. -/

section
variable {s t : State}

@[simp] theorem regWrite_out (r : Reg) (w : Word) : (regWrite s r w).out = s.out := by
  rw [regWrite_frame]

@[simp] theorem regWrite_phase (r : Reg) (w : Word) : (regWrite s r w).phase = s.phase := by
  rw [regWrite_frame]

@[simp] theorem regWrite_err (r : Reg) (w : Word) : (regWrite s r w).err = s.err := by
  rw [regWrite_frame]

theorem encoderStep_out_grows (h : encoderStep s = .next t) : s.out <+: t.out := by
  rcases encoderStep_cases h with rfl | ⟨-, -, p, -, rfl⟩ | ⟨-, -, rfl⟩
  · simp
  · simp
  · simp

theorem encoderStep_err (h : encoderStep s = .next t) : t.err = s.err := by
  rcases encoderStep_cases h with rfl | ⟨-, -, p, -, rfl⟩ | ⟨-, -, rfl⟩ <;> simp

/-- In WALK an operation appends bytes or is a START that is ignored (40 R100). -/
theorem exec_of_walk {i : Instr} (hwalk : s.phase = .walk) (h : exec i s = .next t) : ∃ bs, t = s.emitAll bs := by
  rcases exec_cases h with ⟨-, bs, rfl⟩ | ⟨-, h⟩
  · exact ⟨bs, rfl⟩
  · rw [execStart_of_walk s hwalk] at h
    cases h
    exact ⟨[], rfl⟩

theorem step_out_grows (h : step s = .next t) (hwalk : s.phase = .walk) (hreset : s.moves.head? ≠ some .reset) :
    s.out <+: t.out := by
  cases step_cases h with
  | encoder rest _ h => simpa using encoderStep_out_grows h
  | commandWaits m rest _ _ _ h => simp [h]
  | command m rest i _ _ _ _ h =>
    obtain ⟨bs, rfl⟩ := exec_of_walk (by simpa using hwalk) h
    simp
  | regWrite offset w rest r _ _ _ h => simp [h]
  | ignoredWrite offset w rest _ h => simp [h]
  | read offset rest _ h => simp [h]
  | pixWrite a v rest _ _ _ h => simp [h]
  | reset rest pending => simp [pending] at hreset

theorem step_out_of_noCommand (h : step s = .next t) (hphase : s.phase ≠ .walk)
    (hm : ∀ m ∈ s.moves.head?, m ≠ .reset ∧ m.isCommand = false) : t.out = s.out := by
  cases step_cases h with
  | encoder rest _ h =>
    rw [encoderStep_of_quiescent _ (by simpa using hphase)] at h
    cases h
    simp
  | commandWaits m rest pending command => simp [(hm m (by simp [pending])).2] at command
  | command m rest i pending command => simp [(hm m (by simp [pending])).2] at command
  | regWrite offset w rest r _ _ _ h => simp [h]
  | ignoredWrite offset w rest _ h => simp [h]
  | read offset rest _ h => simp [h]
  | pixWrite a v rest _ _ _ h => simp [h]
  | reset rest pending => exact absurd rfl (hm .reset (by simp [pending])).1

end

/-- Settles O46: the encoder and the chunk operations append; only INIT, in a START or a reset, empties OUT. -/
theorem outputOnlyGrows : Obligations.OutputOnlyGrows := by
  unfold Obligations.OutputOnlyGrows
  exact fun s t h => ⟨step_out_grows h, step_out_of_noCommand h⟩

/-- Settles O47: of all that a step can do, only a START outside WALK and a reset write ERR. -/
theorem errorCodeChangesOnlyWithStart : Obligations.ErrorCodeChangesOnlyWithStart := by
  unfold Obligations.ErrorCodeChangesOnlyWithStart
  intro s t h hne
  cases step_cases h with
  | encoder rest _ h => exact absurd (by simpa using encoderStep_err h) hne
  | commandWaits m rest _ _ _ h => exact absurd (by simp [h]) hne
  | command m rest i pending _ asked _ h =>
    rcases exec_cases h with ⟨-, bs, rfl⟩ | ⟨rfl, hstart⟩
    · exact absurd (by simp) hne
    · refine ⟨m, rest, pending, .inr ⟨?_, ?_⟩⟩
      · exact asked.imp And.right id
      · rcases execStart_cases hstart with ⟨-, rfl⟩ | ⟨hphase, -, ht⟩ | ⟨hphase, hv, ht⟩
        · exact absurd (by simp) hne
        · exact ⟨by simpa using hphase, h, by simp [ht, State.validation]⟩
        · refine ⟨by simpa using hphase, h, ?_⟩
          have hvalid : s.validation = 0#8 := by simpa [State.validation] using hv
          simp [ht, hvalid]
  | regWrite offset w rest r _ _ _ h => exact absurd (by simp [h]) hne
  | ignoredWrite offset w rest _ h => exact absurd (by simp [h]) hne
  | read offset rest _ h => exact absurd (by simp [h]) hne
  | pixWrite a v rest _ _ _ h => exact absurd (by simp [h]) hne
  | reset rest pending => exact ⟨.reset, rest, pending, .inl rfl⟩

/-- Settles O48: only a PIXEL step moves PIX_IDX on, and it is enabled below WIDTH x HEIGHT. -/
theorem pixelIndexAdvancesByOne : Obligations.PixelIndexAdvancesByOne := by
  unfold Obligations.PixelIndexAdvancesByOne
  intro s t h hwalk hreset
  cases step_cases h with
  | encoder rest _ h =>
    rcases encoderStep_cases h with rfl | ⟨-, hidx, p, -, rfl⟩ | ⟨-, -, rfl⟩
    · exact .inl (by simp)
    · exact .inr ⟨by simpa [State.pixels] using hidx, by simp, by simp [State.pixels]⟩
    · exact .inl (by simp)
  | commandWaits m rest _ _ _ h => exact .inl (by simp [h])
  | command m rest i _ _ _ _ h =>
    obtain ⟨bs, rfl⟩ := exec_of_walk (by simpa using hwalk) h
    exact .inl (by simp)
  | regWrite offset w rest r _ _ _ h => exact .inl (by rw [h, regWrite_of_walk (by simpa using hwalk)]; simp)
  | ignoredWrite offset w rest _ h => exact .inl (by simp [h])
  | read offset rest _ h => exact .inl (by simp [h])
  | pixWrite a v rest _ _ _ h => exact .inl (by simp [h])
  | reset rest pending => simp [pending] at hreset

/-! A sink that is not ready (70 R237). -/

section
variable {s t : State}

/-- The encoder's step that would emit waits. -/
theorem encoderStep_waits (hemits : encoderEmits s = true) (hsink : s.sinkReady = false) :
    encoderStep s = .next s := by
  unfold encoderStep
  rw [hemits, offered_waits s _ hsink, offered_waits s _ hsink]
  split_ifs <;> rfl

/-- The encoder's step that emits nothing leaves OUT. -/
theorem encoderStep_out_of_silent (hsilent : encoderEmits s = false) (h : encoderStep s = .next t) :
    t.out = s.out := by
  unfold encoderEmits at hsilent
  rcases encoderStep_cases h with rfl | ⟨-, hidx, p, hp, rfl⟩ | ⟨-, hidx, rfl⟩
  · rfl
  · rw [if_pos hidx, hp] at hsilent
    have hnone : selected s p = [] := by simpa using hsilent
    simp [selectedBytes, hnone]
  · rw [if_neg (by omega)] at hsilent
    have hnone : flushed s = [] := by simpa using hsilent
    simp [hnone]

/-- An operation that emits nothing is a START that is ignored or fails. -/
theorem exec_out_of_silent {i : Instr} (hsilent : emitsNow i s = false) (h : exec i s = .next t) :
    t.out = s.out ∨ t.out = [] := by
  rcases exec_cases h with ⟨hne, -⟩ | ⟨rfl, hstart⟩
  · cases i with
    | start => exact absurd rfl hne
    | index | diff | luma | run | rgb | rgba | hdr => simp [emitsNow] at hsilent
  · rcases execStart_cases hstart with ⟨-, rfl⟩ | ⟨-, -, rfl⟩ | ⟨hphase, hv, rfl⟩
    · exact .inl rfl
    · exact .inr rfl
    · simp [emitsNow, hphase, hv] at hsilent

theorem step_out_of_notReady (h : step s = .next t) (hsink : s.sinkTick.sinkReady = false) :
    t.out = s.out ∨ t.out = [] := by
  cases step_cases h with
  | encoder rest _ h =>
    cases hemits : encoderEmits { s.sinkTick with moves := rest } with
    | true =>
      rw [encoderStep_waits hemits hsink] at h
      cases h
      exact .inl (by simp)
    | false => exact .inl (by simpa using encoderStep_out_of_silent hemits h)
  | commandWaits m rest _ _ _ h => exact .inl (by simp [h])
  | command m rest i _ _ _ sink h =>
    rcases sink with hready | hsilent
    · simp [hsink] at hready
    · simpa using exec_out_of_silent hsilent h
  | regWrite offset w rest r _ _ _ h => exact .inl (by simp [h])
  | ignoredWrite offset w rest _ h => exact .inl (by simp [h])
  | read offset rest _ h => exact .inl (by simp [h])
  | pixWrite a v rest _ _ _ h => exact .inl (by simp [h])
  | reset rest _ h => exact .inr (by simp [h])

/-- What comes next does not depend on the sink or, but for the move itself, on the moves to come. -/
theorem encoderEmits_sinkTick (s : State) (rest : List Move) :
    encoderEmits { s.sinkTick with moves := rest } = encoderEmits s := by
  unfold State.sinkTick
  split <;> rfl

theorem emitsNow_sinkTick (i : Instr) (s : State) (rest : List Move) :
    emitsNow i { s.sinkTick with moves := rest } = emitsNow i s := by
  unfold State.sinkTick
  split <;> rfl

theorem encoderStep_waits_sinkTick {rest : List Move} (hemits : encoderEmits s = true)
    (hsink : s.sinkTick.sinkReady = false) :
    encoderStep { s.sinkTick with moves := rest } = .next { s.sinkTick with moves := rest } :=
  encoderStep_waits ((encoderEmits_sinkTick s rest).trans hemits) hsink

theorem State.sinkTick_withMoves (s : State) : ({ s.sinkTick with moves := s.moves } : State) = s.sinkTick := by
  rw [← State.sinkTick_moves]

theorem step_waits (hemits : s.emitsNext) (hsink : s.sinkTick.sinkReady = false) : step s = .next s.sinkTick := by
  rcases hemits with ⟨hm, -, hemits⟩ | ⟨w, rest, hm, hbit, hphase, hv⟩ | ⟨w, i, rest, hm, hd, hemits⟩
  · have hwait := encoderStep_waits_sinkTick (rest := s.moves) hemits hsink
    rw [State.sinkTick_withMoves] at hwait
    simpa only [step, nextMove, State.sinkTick_moves, hm] using hwait
  · have hstart : emitsNow .start s = true := by simp [emitsNow, hphase, hv]
    rw [step_write_ctrl_of_set hm hbit, emitsNow_sinkTick, hstart, offered_waits _ _ hsink]
  · rw [step_op hm hd, emitsNow_sinkTick, hemits, offered_waits _ _ hsink]

theorem step_wait_waits {rest : List Move} (hm : s.moves = .wait :: rest) (hemits : encoderEmits s = true)
    (hsink : s.sinkTick.sinkReady = false) : step s = .next { s.sinkTick with moves := rest } := by
  rw [step_of_move hm]
  exact encoderStep_waits_sinkTick hemits hsink

/-- The state with another sink. -/
def State.withSink (s : State) (ready : Bool) (levels : List Bool) : State :=
  { s with sinkReady := ready, sinkLevels := levels }

theorem State.emitsNext.withSink (h : s.emitsNext) (ready : Bool) (levels : List Bool) :
    (s.withSink ready levels).emitsNext := h

/-- Levels at which the sink is not ready only put off the step, whatever level it starts from. -/
theorem run_after_waiting (k : Nat) (ready : Bool) (h : s.emitsNext) :
    core.run (k + 1) (s.withSink ready (List.replicate k false ++ [true])) = core.run 1 (s.withSink ready [true]) := by
  induction k generalizing ready with
  | zero => rfl
  | succ k ih =>
    have hstep : step (s.withSink ready (List.replicate (k + 1) false ++ [true])) =
        .next (s.withSink false (List.replicate k false ++ [true])) :=
      step_waits (h.withSink ready _) rfl
    rw [core_run_succ hstep, ih false]
    rfl

theorem run_never_ready (k : Nat) (h : s.emitsNext) (hlevels : s.sinkLevels = []) (hsink : s.sinkReady = false) :
    core.run k s = .next s := by
  have htick := State.sinkTick_of_nil s hlevels
  have hstep : step s = .next s := by
    rw [step_waits h (by rw [htick, hsink]), htick]
  induction k with
  | zero => rfl
  | succ k ih => rw [core_run_succ hstep, ih]

end

/-- Settles O49: what would emit waits, by induction for as long as the sink is not ready. -/
theorem backPressureOnlyDelays : Obligations.BackPressureOnlyDelays := by
  unfold Obligations.BackPressureOnlyDelays
  exact ⟨fun _ _ h hsink => step_out_of_notReady h hsink, fun _ h hsink => step_waits h hsink,
    fun _ _ hm _ hemits hsink => step_wait_waits hm hemits hsink, fun k s h => run_after_waiting k s.sinkReady h,
    fun k _ h hlevels hsink => run_never_ready k h hlevels hsink⟩

end Sys2Proof.Machine

/-! The invariants of 10_state section 12: the state after reset meets them, and every step keeps them. -/

namespace Sys2Proof.Machine

/-- Settles O50, field by field. -/
theorem resetMeetsTheInvariant : Obligations.ResetMeetsTheInvariant := by
  unfold Obligations.ResetMeetsTheInvariant
  exact {
    noBenchMove := rfl
    lengthCounted := rfl
    srcInAddressSpace := by decide
    memoryCanonical := Memory.reset_wf
    memoryInAddressSpace := nofun
    errorIsACode := by decide
    errorHasNoOutput := fun h => absurd rfl h
    idleHasNoOutput := fun _ => rfl
    doneHasOutput := nofun
    walking := nofun }

/-! What a valid descriptor gives. -/

section
variable {s : State}

/-- The image's literal has its marker and a byte a channel (42 R150). -/
theorem literalLength_eq (h : s.validation = 0#8) :
    (if s.channels = 4#8 then 5 else 4) = s.channels.toNat + 1 := by
  rcases channels_of_validation h with hc | hc <;> simp [hc]

theorem literal_byteLength (h : s.validation = 0#8) (p : Pixel) :
    (literal s p).byteLength = s.channels.toNat + 1 := by
  rw [← literalLength_eq h]
  unfold literal
  split <;> rfl

/-- A validated image has a pixel (40 R103). -/
theorem pixels_pos_of_validation (h : s.validation = 0#8) : 0 < s.pixels := by
  obtain ⟨-, -, -, -, hvalid, -⟩ := validationReportsFirstViolation s.src s.width s.height s.channels s.colorspace
  obtain ⟨-, hw, hh, -, -⟩ := hvalid.1 h
  exact Nat.mul_pos (by bv_omega) (by bv_omega)

/-- A pixel of a 3-channel image has A = 0 (20 R54). -/
theorem alpha_of_fetchPixel {i : Nat} {p : Pixel} (h : fetchPixel s i = .ok p) (hthree : s.channels = 3#8) :
    p.a = 0#8 := by
  obtain ⟨-, -, -, ha⟩ := (fetchPixel_eq_ok s i p).1 h
  simpa [hthree] using ha

/-! The invariant of WALK (10 R39). -/

/-- Below WIDTH x HEIGHT the index does not wrap (10 R33). -/
theorem pixIdx_succ (hidx : s.pixIdx.toNat < s.pixels) :
    (s.pixIdx + 1#64).toNat = s.pixIdx.toNat + 1 ∧ s.pixIdx + 1#64 ≠ 0#64 := by
  have hbound := pixels_lt s
  constructor <;> bv_omega

/-- The header stays first when bytes are appended after it. -/
theorem WalkInvariant.headerFirst_append (h : WalkInvariant s) (bs : List Byte) :
    (s.out ++ bs).take 14 = headerBytes s.config.magic s.width s.height s.channels s.colorspace := by
  rw [List.take_append_of_le_length h.headerComplete, h.headerFirst]

/-- What is kept over a PIXEL step that extends a run: PREV and the cache stay (42 R143, R144). -/
theorem WalkInvariant.extendRun {p : Pixel} (h : WalkInvariant s) (hidx : s.pixIdx.toNat < s.pixels)
    (hrun : continuesRun s p = true) : WalkInvariant ((afterPixel s p).emitAll (selectedBytes s p)) := by
  obtain ⟨hprev, -⟩ := (continuesRun_iff s p).1 hrun
  obtain ⟨hnext, hne⟩ := pixIdx_succ hidx
  have hbytes : (s.out ++ selectedBytes s p).length = s.out.length + if s.run = 61#6 then 1 else 0 := by
    rw [List.length_append, selectedBytes_length_of_run hrun]
  have hcomplete := h.headerComplete
  have hliteral := h.literalOut hprev
  rw [afterPixel_of_run s p hrun, State.emitAll_eq]
  exact {
    validated := h.validated
    indexInRange := hnext.trans_le hidx
    prevFromFirst := iff_of_false (by simp [hprev]) hne
    prevInItsSlot := h.prevInItsSlot
    runCapped := runAfter_le h.runCapped
    runHasPrev := fun _ => hprev
    slotsHoldTheirHash := h.slotsHoldTheirHash
    noAlphaInPrev := h.noAlphaInPrev
    noAlphaInSlots := h.noAlphaInSlots
    noError := h.noError
    headerFirst := h.headerFirst_append _
    headerComplete := by simp only [hbytes]; omega
    literalOut := fun _ => by simp only [hbytes]; omega
    sizeBound := by
      have hsize := h.sizeBound
      have hcap := h.runCapped
      simp only [hbytes, hnext, runAfter_eq, Nat.mul_succ]
      split_ifs at hsize ⊢ <;> bv_omega }

/-- What holds after a PIXEL step of any other pixel: it is PREV and it is stored (42 R151). -/
theorem WalkInvariant.takePixel {p : Pixel} (h : WalkInvariant s) (hidx : s.pixIdx.toNat < s.pixels)
    (hp : fetchPixel s s.pixIdx.toNat = .ok p) (hnew : continuesRun s p = false) :
    WalkInvariant ((afterPixel s p).emitAll (selectedBytes s p)) := by
  obtain ⟨hnext, hne⟩ := pixIdx_succ hidx
  have hbytes : (s.out ++ selectedBytes s p).length =
      s.out.length + ((if s.run = 0#6 then 0 else 1) + (classify s p).byteLength) := by
    rw [List.length_append, selectedBytes_length_of_new hnew]
  have hcomplete := h.headerComplete
  have hslot (i : BitVec 6) : slotAt (storePixel s.cache p) i =
      if i = hash p then { valid := true, px := p } else slotAt s.cache i := by
    split_ifs with hi
    · rw [hi, slotAt_storePixel_same]
    · exact slotAt_storePixel_other s.cache p i hi
  rw [afterPixel_of_new s p hnew, State.emitAll_eq]
  exact {
    validated := h.validated
    indexInRange := hnext.trans_le hidx
    prevFromFirst := iff_of_false (by simp) hne
    prevInItsSlot := fun _ => slotAt_storePixel_same s.cache p
    runCapped := by simp
    runHasPrev := fun _ => rfl
    slotsHoldTheirHash := fun i => by
      simp only [hslot]
      split_ifs with hi
      · exact fun _ => hi.symm
      · exact h.slotsHoldTheirHash i
    noAlphaInPrev := fun hthree _ => alpha_of_fetchPixel hp hthree
    noAlphaInSlots := fun hthree i => by
      simp only [hslot]
      split_ifs with hi
      · exact fun _ => alpha_of_fetchPixel hp hthree
      · exact h.noAlphaInSlots hthree i
    noError := h.noError
    headerFirst := h.headerFirst_append _
    headerComplete := by simp only [hbytes]; omega
    literalOut := fun _ => by
      simp only [hbytes]
      cases hprev : s.prevValid with
      | true =>
        have hliteral := h.literalOut hprev
        omega
      | false =>
        have ⟨hthree, _⟩ := channels_toNat_bounds (channels_of_validation h.validated)
        rw [classify_of_noPrev hprev, literal_byteLength h.validated]
        omega
    sizeBound := by
      have hsize := h.sizeBound
      have hchunk := classify_byteLength_le s p
      rw [literalLength_eq h.validated] at hchunk
      simp only [hbytes, hnext, Nat.mul_succ, if_true]
      split_ifs at hsize ⊢ <;> omega }

theorem WalkInvariant.pixel {p : Pixel} (h : WalkInvariant s) (hidx : s.pixIdx.toNat < s.pixels)
    (hp : fetchPixel s s.pixIdx.toNat = .ok p) : WalkInvariant ((afterPixel s p).emitAll (selectedBytes s p)) := by
  cases hrun : continuesRun s p with
  | true => exact h.extendRun hidx hrun
  | false => exact h.takePixel hidx hp hrun

/-- Before the first pixel everything is as INIT and the header left it (40 R107). -/
theorem State.started_walkInvariant (h : s.validation = 0#8) : WalkInvariant s.started := by
  rw [State.started, State.emitAll_eq]
  exact {
    validated := h
    indexInRange := Nat.zero_le _
    prevFromFirst := iff_of_true rfl rfl
    prevInItsSlot := nofun
    runCapped := by simp
    runHasPrev := fun hrun => absurd rfl hrun
    slotsHoldTheirHash := by simp
    noAlphaInPrev := nofun
    noAlphaInSlots := by simp
    noError := rfl
    headerFirst := rfl
    headerComplete := le_rfl
    literalOut := nofun
    sizeBound := le_rfl }

/-- OUT, with the byte of a pending run, is never so long that OUT_LEN would wrap (10 R27). -/
theorem WalkInvariant.out_length_lt (h : WalkInvariant s) :
    s.out.length + (if s.run = 0#6 then 0 else 1) < 2 ^ 67 :=
  calc s.out.length + (if s.run = 0#6 then 0 else 1)
      ≤ 14 + (s.channels.toNat + 1) * s.pixIdx.toNat := h.sizeBound
    _ ≤ 14 + 5 * 2 ^ 64 := Nat.add_le_add_left (Nat.mul_le_mul
        (Nat.succ_le_succ (channels_toNat_bounds (channels_of_validation h.validated)).2) s.pixIdx.isLt.le) 14
    _ < 2 ^ 67 := by norm_num

/-- After the last pixel PREV is valid, so OUT holds the header and a literal at least (10 R39). -/
theorem WalkInvariant.literalOut_of_finished (h : WalkInvariant s) (hidx : s.pixIdx.toNat = s.pixels) :
    18 ≤ s.out.length := by
  have hpos := pixels_pos_of_validation h.validated
  refine h.literalOut (Bool.eq_true_of_not_eq_false fun hnone => ?_)
  rw [h.prevFromFirst.1 hnone] at hidx
  exact hpos.ne hidx

end

/-! The invariant of every step boundary: what each kind of step keeps. -/

section
variable {s t : State}

/-- A count of bytes that fits into OUT_LEN goes on counting. -/
theorem lengthCounted_append {n : BitVec 67} {out bs : List Byte} (h : n.toNat = out.length)
    (hlt : (out ++ bs).length < 2 ^ 67) : (n + BitVec.ofNat 67 bs.length).toNat = (out ++ bs).length := by
  rw [List.length_append] at hlt ⊢
  rw [BitVec.toNat_add, BitVec.toNat_ofNat, h, Nat.mod_eq_of_lt (by omega : bs.length < 2 ^ 67), Nat.mod_eq_of_lt hlt]

theorem Invariant.pixel {p : Pixel} (h : Invariant s) (hwalk : s.phase = .walk) (hidx : s.pixIdx.toNat < s.pixels)
    (hp : fetchPixel s s.pixIdx.toNat = .ok p) : Invariant ((afterPixel s p).emitAll (selectedBytes s p)) := by
  have hnext := (h.walking hwalk).pixel hidx hp
  have hlt := hnext.out_length_lt
  exact {
    noBenchMove := by simpa using h.noBenchMove
    lengthCounted := by
      simp only [State.emitAll_out, State.emitAll_outLen, afterPixel_out, afterPixel_outLen] at hlt ⊢
      exact lengthCounted_append h.lengthCounted (by omega)
    srcInAddressSpace := by simpa using h.srcInAddressSpace
    memoryCanonical := by simpa using h.memoryCanonical
    memoryInAddressSpace := by simpa using h.memoryInAddressSpace
    errorIsACode := by simpa using h.errorIsACode
    errorHasNoOutput := fun herr => absurd hnext.noError herr
    idleHasNoOutput := fun hphase => by simp [hwalk] at hphase
    doneHasOutput := fun hphase => by simp [hwalk] at hphase
    walking := fun _ => hnext }

theorem Invariant.finish (h : Invariant s) (hwalk : s.phase = .walk) (hidx : s.pixIdx.toNat = s.pixels) :
    Invariant { s.emitAll ((flushed s).flatMap fun i => (encode 0#32 i).bytes) with run := 0#6, phase := .done } := by
  have hw := h.walking hwalk
  have hlt := hw.out_length_lt
  have hliteral := hw.literalOut_of_finished hidx
  rw [flushed_bytes]
  exact {
    noBenchMove := by simpa using h.noBenchMove
    lengthCounted := by
      simp only [State.emitAll_out, State.emitAll_outLen]
      refine lengthCounted_append h.lengthCounted ?_
      split_ifs at hlt ⊢ <;> simpa using hlt
    srcInAddressSpace := by simpa using h.srcInAddressSpace
    memoryCanonical := by simpa using h.memoryCanonical
    memoryInAddressSpace := by simpa using h.memoryInAddressSpace
    errorIsACode := by simpa using h.errorIsACode
    errorHasNoOutput := fun herr => absurd (by simpa using hw.noError) herr
    idleHasNoOutput := nofun
    doneHasOutput := fun _ _ => by simp only [State.emitAll_out, List.length_append]; omega
    walking := nofun }

theorem encoderStep_keeps_invariant (h : Invariant s) (hstep : encoderStep s = .next t) : Invariant t := by
  rcases encoderStep_cases hstep with rfl | ⟨hwalk, hidx, p, hp, rfl⟩ | ⟨hwalk, hidx, rfl⟩
  · exact h
  · rw [afterPixel_emitAll]
    exact h.pixel hwalk hidx hp
  · exact h.finish hwalk hidx

theorem execStart_keeps_invariant (h : Invariant s) (hstep : execStart s = .next t) : Invariant t := by
  rcases execStart_cases hstep with ⟨-, rfl⟩ | ⟨-, hv, rfl⟩ | ⟨hphase, hv, -⟩
  · exact h
  · obtain ⟨-, -, -, -, -, hcode⟩ := validationReportsFirstViolation s.src s.width s.height s.channels s.colorspace
    exact {
      noBenchMove := h.noBenchMove
      lengthCounted := rfl
      srcInAddressSpace := h.srcInAddressSpace
      memoryCanonical := h.memoryCanonical
      memoryInAddressSpace := h.memoryInAddressSpace
      errorIsACode := hcode
      errorHasNoOutput := fun _ => ⟨rfl, rfl⟩
      idleHasNoOutput := nofun
      doneHasOutput := fun _ herr => absurd herr hv
      walking := nofun }
  · rw [execStart_eq_started hphase hv] at hstep
    cases hstep
    exact {
      noBenchMove := by simpa [State.started] using h.noBenchMove
      lengthCounted := by simp [State.started, headerBytes_length]
      srcInAddressSpace := by simpa [State.started] using h.srcInAddressSpace
      memoryCanonical := by simpa [State.started] using h.memoryCanonical
      memoryInAddressSpace := by simpa [State.started] using h.memoryInAddressSpace
      errorIsACode := by simp [State.started]
      errorHasNoOutput := fun herr => absurd (by simp [State.started]) herr
      idleHasNoOutput := nofun
      doneHasOutput := nofun
      walking := fun _ => State.started_walkInvariant hv }

/-- SRC is always cut to AW bits (10 R21). -/
theorem truncAw_lt (c : Config) (v : BitVec 64) : (truncAw c v).toNat < 2 ^ c.aw := by
  rw [truncAw_toNat]
  exact Nat.mod_lt _ (by positivity)

/-- Outside WALK no invariant ties the descriptor to anything but AW. -/
theorem Invariant.withDescriptor (h : Invariant s) (hphase : s.phase ≠ .walk) {src : BitVec 64}
    (hsrc : src.toNat < 2 ^ s.config.aw) (width height : Word) (channels colorspace : Byte) :
    Invariant { s with
      src := src, width := width, height := height, channels := channels, colorspace := colorspace } :=
  { noBenchMove := h.noBenchMove, lengthCounted := h.lengthCounted, srcInAddressSpace := hsrc
    memoryCanonical := h.memoryCanonical, memoryInAddressSpace := h.memoryInAddressSpace
    errorIsACode := h.errorIsACode, errorHasNoOutput := h.errorHasNoOutput, idleHasNoOutput := h.idleHasNoOutput
    doneHasOutput := h.doneHasOutput, walking := fun hwalk => absurd hwalk hphase }

theorem regWrite_keeps_invariant (h : Invariant s) (r : Reg) (w : Word) : Invariant (regWrite s r w) := by
  by_cases hphase : s.phase = .walk
  · rwa [regWrite_of_walk hphase]
  have hsrc := h.srcInAddressSpace
  cases r with
  | width => rw [regWrite_width hphase]; exact h.withDescriptor hphase hsrc ..
  | height => rw [regWrite_height hphase]; exact h.withDescriptor hphase hsrc ..
  | channels => rw [regWrite_channels hphase]; exact h.withDescriptor hphase hsrc ..
  | colorspace => rw [regWrite_colorspace hphase]; exact h.withDescriptor hphase hsrc ..
  | srcLow => rw [regWrite_srcLow hphase]; exact h.withDescriptor hphase (truncAw_lt ..) ..
  | srcHigh => rw [regWrite_srcHigh hphase]; exact h.withDescriptor hphase (truncAw_lt ..) ..
  | ctrl | status | err | outLen0 | outLen1 | outLen2 =>
    rwa [regWrite_of_not_descriptor (by simp [Reg.offset])]

/-- The invariant of WALK says nothing about the outside world. -/
theorem WalkInvariant.withOutside (h : WalkInvariant s) (moves : List Move) (busData : Word) (ready : Bool)
    (levels : List Bool) (pix : Memory) :
    WalkInvariant { s with
      moves := moves, busData := busData, sinkReady := ready, sinkLevels := levels, pix := pix } :=
  { h with }

/-- Of the outside world the invariants say that no bench move is pending and that PIX is canonical. -/
theorem Invariant.withOutside (h : Invariant s) {moves : List Move} (hmoves : moves.all (fun m => !m.isBench) = true)
    {pix : Memory} (hwf : pix.wf) (hpix : ∀ cell ∈ pix, cell.1 < 2 ^ s.config.aw) (busData : Word) (ready : Bool)
    (levels : List Bool) :
    Invariant { s with
      moves := moves, busData := busData, sinkReady := ready, sinkLevels := levels, pix := pix } :=
  { h with
    noBenchMove := hmoves, memoryCanonical := hwf, memoryInAddressSpace := hpix
    walking := fun hwalk => (h.walking hwalk).withOutside .. }

theorem hardwareReset_keeps_invariant (h : Invariant s) : Invariant s.hardwareReset where
  noBenchMove := by simpa using h.noBenchMove
  lengthCounted := by simp
  srcInAddressSpace := truncAw_lt ..
  memoryCanonical := by simpa using h.memoryCanonical
  memoryInAddressSpace := by simpa using h.memoryInAddressSpace
  errorIsACode := by simp
  errorHasNoOutput := fun herr => absurd rfl herr
  idleHasNoOutput := fun _ => rfl
  doneHasOutput := nofun
  walking := nofun

/-- The moves behind the encoder's step. -/
theorem suffix_of_pending {rest : List Move} (h : s.moves = rest ∨ s.moves = .wait :: rest) : rest <:+ s.moves := by
  rcases h with h | h
  · exact h ▸ List.suffix_rfl
  · exact h ▸ List.suffix_cons _ rest

/-- The state a move is taken in: the sink's level presented, the moves behind it pending. -/
theorem Invariant.taken (h : Invariant s) {rest : List Move} (hrest : rest <:+ s.moves) :
    Invariant { s.sinkTick with moves := rest } := by
  have hmoves : rest.all (fun m => !m.isBench) = true := by
    have hall := h.noBenchMove
    simp only [List.all_eq_true] at hall ⊢
    exact fun m hm => hall m (hrest.subset hm)
  unfold State.sinkTick
  split <;> exact h.withOutside hmoves h.memoryCanonical h.memoryInAddressSpace ..

end

/-- Settles O51, by what the step did: the encoder, a START, a register or PIX write, a read, or a reset. -/
theorem stepKeepsTheInvariant : Obligations.StepKeepsTheInvariant := by
  unfold Obligations.StepKeepsTheInvariant
  intro s t h hstep
  have htaken {m : Move} {rest : List Move} (pending : s.moves = m :: rest) :
      Invariant { s.sinkTick with moves := rest } := h.taken (pending ▸ List.suffix_cons m rest)
  cases step_cases hstep with
  | encoder rest pending hencoder =>
    exact encoderStep_keeps_invariant (h.taken (suffix_of_pending pending)) hencoder
  | commandWaits m rest pending _ _ ht =>
    rw [ht, ← State.sinkTick_withMoves]
    exact h.taken List.suffix_rfl
  | command m rest i pending _ asked _ hexec =>
    rcases asked with ⟨rfl, -⟩ | ⟨w, rfl, -⟩
    · exact execStart_keeps_invariant (htaken pending) hexec
    · have hbench := h.noBenchMove
      simp [pending, Move.isBench] at hbench
  | regWrite offset w rest r pending _ _ ht =>
    rw [ht]
    exact regWrite_keeps_invariant (htaken pending) r w
  | ignoredWrite offset w rest pending ht =>
    rw [ht]
    exact htaken pending
  | read offset rest pending ht =>
    have hu := htaken pending
    rw [ht]
    exact hu.withOutside hu.noBenchMove hu.memoryCanonical hu.memoryInAddressSpace ..
  | pixWrite a v rest pending inSpace _ ht =>
    have hu := htaken pending
    rw [ht]
    refine hu.withOutside hu.noBenchMove (Memory.write_wf _ a v hu.memoryCanonical) (fun cell hcell => ?_) ..
    rcases Memory.mem_write _ a v cell hcell with rfl | hcell
    · exact inSpace
    · exact hu.memoryInAddressSpace cell hcell
  | reset rest pending ht =>
    rw [ht]
    exact hardwareReset_keeps_invariant (htaken pending)

end Sys2Proof.Machine

/-! The reader of OUT (44_reference_decoder): reading on over one more chunk, the lockstep of block and reader at every
pixel, and that every step keeps it. -/

namespace Sys2Proof.Machine

/-! Reading a stream to its end. -/

section
variable {channels : Byte} {total : Nat} {r r' r'' : Reader}

/-- Bytes after a chunk are not looked at. -/
theorem decodeChunk_append {bs rest : List Byte} {i : Instr} (h : decodeChunk bs = .ok (i, rest)) (cs : List Byte) :
    decodeChunk (bs ++ cs) = .ok (i, rest ++ cs) := by
  obtain ⟨hchunk, hwf, rfl⟩ := decodeChunk_eq_ok 0#32 h
  rw [List.append_assoc, decodeChunk_encode_append 0#32 hchunk hwf]

/-- A chunk takes a byte at least (30 R75). -/
theorem decodeChunk_rest_length {bs rest : List Byte} {i : Instr} (h : decodeChunk bs = .ok (i, rest)) :
    rest.length < bs.length := by
  obtain ⟨hchunk, -, rfl⟩ := decodeChunk_eq_ok 0#32 h
  have hpos := one_le_byteLength_of_isChunk hchunk
  rw [List.length_append, encode_chunk_length 0#32 hchunk]
  omega

/-- A replay that gets over its first byte has read one chunk, and goes on after it. -/
theorem replay_cons {n : Nat} {b : Byte} {bs : List Byte} (h : replay channels total n (b :: bs) r = some r') :
    ∃ m i rest r₁, n = m + 1 ∧ decodeChunk (b :: bs) = .ok (i, rest) ∧ readChunk channels total i r = some r₁ ∧
      replay channels total m rest r₁ = some r' := by
  cases n with
  | zero => cases h
  | succ m =>
    rw [replay] at h
    split at h
    · next i rest hread =>
      split at h
      · next r₁ hchunk => exact ⟨m, i, rest, r₁, rfl, hread, hchunk, h⟩
      · cases h
    · cases h

theorem replay_nil (n : Nat) : replay channels total n [] r = some r := by
  cases n <;> rfl

/-- Any fuel that is as much as there are bytes does for what some fuel has read. -/
theorem replay_fuel {n m : Nat} {bs : List Byte} (h : replay channels total n bs r = some r') (hm : bs.length ≤ m) :
    replay channels total m bs r = some r' := by
  induction m generalizing n bs r with
  | zero =>
    obtain rfl := List.eq_nil_of_length_eq_zero (Nat.le_zero.1 hm)
    rwa [replay_nil] at h ⊢
  | succ m ih =>
    cases bs with
    | nil => rwa [replay_nil] at h ⊢
    | cons b bs =>
      obtain ⟨n, i, rest, r₁, -, hread, hchunk, hrest⟩ := replay_cons h
      have hlength := decodeChunk_rest_length hread
      simp only [replay, hread, hchunk]
      exact ih hrest (by omega)

/-- The bytes take the reader from `r` to `r'`; the fuel is as many rounds as there are bytes. -/
def Reads (channels : Byte) (total : Nat) (bs : List Byte) (r r' : Reader) : Prop :=
  replay channels total bs.length bs r = some r'

theorem Reads.nil : Reads channels total [] r r := rfl

theorem Reads.append {bs cs : List Byte} (hbs : Reads channels total bs r r') (hcs : Reads channels total cs r' r'') :
    Reads channels total (bs ++ cs) r r'' := by
  unfold Reads at hbs
  generalize bs.length = n at hbs
  induction n generalizing bs r with
  | zero =>
    cases bs with
    | nil => cases hbs; exact hcs
    | cons b bs => cases hbs
  | succ n ih =>
    cases bs with
    | nil => rw [replay_nil] at hbs; cases hbs; exact hcs
    | cons b bs =>
      obtain ⟨m, i, rest, r₁, hm, hread, hchunk, hrest⟩ := replay_cons hbs
      obtain rfl : n = m := by omega
      have hread' := decodeChunk_append hread cs
      have hlength := decodeChunk_rest_length hread'
      rw [List.cons_append] at hread' hlength
      rw [Reads, List.cons_append, List.length_cons, replay, hread']
      simp only [hchunk]
      rw [List.length_cons] at hlength
      exact replay_fuel (ih hrest) (by omega)

/-- A chunk of the stream, read as `readChunk` says. -/
theorem reads_chunk {i : Instr} (hchunk : i.isChunk = true) (hwf : i.wf = true)
    (h : readChunk channels total i r = some r') : Reads channels total (encode 0#32 i).bytes r r' := by
  have hread := decodeChunk_encode_append 0#32 hchunk hwf []
  have hpos := one_le_byteLength_of_isChunk hchunk
  rw [← encode_chunk_length 0#32 hchunk] at hpos
  rw [List.append_nil] at hread
  unfold Reads
  cases hbytes : (encode 0#32 i).bytes with
  | nil => rw [hbytes] at hpos; cases hpos
  | cons b bs =>
    rw [hbytes] at hread
    simp only [List.length_cons, replay, hread, h, replay_nil]

/-! The reader's table (44 R189). -/

theorem Reader.slot_produce_same (r : Reader) (p : Pixel) : (r.produce p).slot (hash p) = some p := by
  simp [Reader.slot, Reader.produce, Vector.get_eq_getElem]

theorem Reader.slot_produce_other (r : Reader) (p : Pixel) {i : BitVec 6} (h : i ≠ hash p) :
    (r.produce p).slot i = r.slot i := by
  have hne : (hash p).toNat ≠ i.toNat := fun e => h (BitVec.eq_of_toNat_eq e.symm)
  simp [Reader.slot, Reader.produce, Vector.get_eq_getElem, hne]

theorem Reader.slot_initial (i : BitVec 6) : Reader.initial.slot i = none := by
  simp [Reader.slot, Reader.initial, Vector.get_eq_getElem]

end

/-! Reader and block, pixel by pixel. -/

/-- The reader holds the block's previous pixel and its cache (10 R39 item 7). -/
structure InStep (r : Reader) (s : State) : Prop where
  prev : r.dprev = if s.prevValid then some s.prev else none
  slots : ∀ i, r.slot i = lookup s.cache i

/-- What the reader has produced, and the pending run it has not seen yet. -/
def Reader.pixelsWithRun (r : Reader) (s : State) : List Pixel := r.outpx ++ List.replicate s.run.toNat s.prev

section
variable {s : State} {r : Reader} {p : Pixel}

/-- The reader when it has read the pending run. -/
def Reader.caughtUp (r : Reader) (s : State) : Reader := { r with outpx := r.pixelsWithRun s }

theorem InStep.dprev (h : InStep r s) (hprev : s.prevValid = true) : r.dprev = some s.prev := by
  rw [h.prev, hprev]
  rfl

/-- The chunk of a run, read as far as the image has room for it (44 R191). -/
theorem reads_opRun {channels : Byte} {total : Nat} {n : BitVec 6} {q : Pixel} (hpos : 1 ≤ n.toNat)
    (hcap : n.toNat ≤ 62) (hq : r.dprev = some q) (hroom : r.outpx.length + n.toNat ≤ total) :
    Reads channels total (encode 0#32 (opRun n)).bytes r
      { r with outpx := r.outpx ++ List.replicate n.toNat q } :=
  reads_chunk rfl (opRun_wf (by rintro rfl; cases hpos) hcap) (readChunk_opRun channels total hpos hq hroom)

/-- The flushed run, if any, brings the reader up to the block. -/
theorem reads_flushed (hinv : WalkInvariant s) (h : InStep r s) (hroom : (r.pixelsWithRun s).length ≤ s.pixels) :
    Reads s.channels s.pixels ((flushed s).flatMap fun i => (encode 0#32 i).bytes) r (r.caughtUp s) := by
  unfold flushed
  split_ifs with hnone
  · have hsame : r.caughtUp s = r := by simp [Reader.caughtUp, Reader.pixelsWithRun, hnone]
    rw [hsame]
    exact .nil
  · have hcap := hinv.runCapped
    rw [Reader.pixelsWithRun, List.length_append, List.length_replicate] at hroom
    rw [List.flatMap_singleton]
    exact reads_opRun (by bv_omega) (by omega) (h.dprev (hinv.runHasPrev hnone)) hroom

/-- The chunk of a pixel that extends no run stands for that pixel (44 R184 to R188). -/
theorem readChunk_classify (hinv : WalkInvariant s) (h : InStep r s) {i : Nat} (hp : fetchPixel s i = .ok p)
    {r₁ : Reader} (hdprev : r₁.dprev = r.dprev) (hslot : ∀ i, r₁.slot i = r.slot i) :
    readChunk s.channels s.pixels (classify s p) r₁ = some (r₁.produce p) := by
  have hc := classify_classified s p
  generalize classify s p = c at hc
  cases hc with
  | rgb three =>
    have hthree : s.channels = 3#8 := (channels_of_validation hinv.validated).resolve_right three
    have ha := alpha_of_fetchPixel hp hthree
    simp [readChunk, hthree, ← ha]
  | rgba four => simp [readChunk, four]
  | index hasPrev held => exact readChunk_index _ _ (by rw [hslot, h.slots, held])
  | diff fr fg fb hasPrev stands => simp [readChunk, hdprev, h.dprev hasPrev, stands]
  | luma fg frg fbg hasPrev stands => simp [readChunk, hdprev, h.dprev hasPrev, stands]

/-- The block's STORE is the reader's update (41 R124; 44 R189). -/
theorem inStep_produce (h : ∀ i, r.slot i = lookup s.cache i) (hnew : continuesRun s p = false) :
    InStep (r.produce p) (afterPixel s p) := by
  rw [afterPixel_of_new s p hnew]
  refine ⟨rfl, fun i => ?_⟩
  by_cases hi : i = hash p
  · rw [hi, Reader.slot_produce_same, lookup_storePixel_same]
  · rw [Reader.slot_produce_other r p hi, lookup_storePixel_other _ _ _ hi, h]

/-- What a PIXEL step emits brings a reader that is in step with the block to the next pixel, in step again. -/
theorem InStep.pixel (hinv : WalkInvariant s) (h : InStep r s) (hp : fetchPixel s s.pixIdx.toNat = .ok p)
    (hcount : (r.pixelsWithRun s).length = s.pixIdx.toNat) (hidx : s.pixIdx.toNat < s.pixels) :
    ∃ r', Reads s.channels s.pixels (selectedBytes s p) r r' ∧ InStep r' (afterPixel s p) ∧
      r'.pixelsWithRun (afterPixel s p) = r.pixelsWithRun s ++ [p] := by
  cases hrun : continuesRun s p with
  | true =>
    obtain ⟨hprev, rfl⟩ := (continuesRun_iff s p).1 hrun
    have hcap := hinv.runCapped
    rw [selectedBytes_of_run hrun, afterPixel_of_run s _ hrun]
    simp only [Reader.pixelsWithRun, runAfter_eq, List.append_assoc, ← List.replicate_succ'] at hcount ⊢
    by_cases hfull : s.run = 61#6
    · rw [if_pos hfull, if_pos hfull]
      have hroom : r.outpx.length + 62 ≤ s.pixels := by simp [hfull] at hcount; omega
      exact ⟨_, reads_opRun (n := 62#6) (by decide) (by decide) (h.dprev hprev) hroom, ⟨h.prev, h.slots⟩,
        by simp [hfull]⟩
    · have hnext : (s.run + 1#6).toNat = s.run.toNat + 1 := by bv_omega
      rw [if_neg hfull, if_neg hfull]
      exact ⟨r, .nil, ⟨h.prev, h.slots⟩, by rw [hnext]⟩
  | false =>
    have hbytes : selectedBytes s p =
        ((flushed s).flatMap fun i => (encode 0#32 i).bytes) ++ (encode 0#32 (classify s p)).bytes := by
      simp [selectedBytes, selected, hrun]
    refine ⟨(r.caughtUp s).produce p, ?_, inStep_produce h.slots hrun, ?_⟩
    · rw [hbytes]
      exact (reads_flushed hinv h (by omega)).append (reads_chunk (classify_isChunk s p)
        (wf_of_not_run (classify_isChunk s p) (classify_ne_run s p))
        (readChunk_classify hinv h hp rfl fun _ => rfl))
    · simp [afterPixel_of_new s p hrun, Reader.pixelsWithRun, Reader.produce, Reader.caughtUp]

end

/-! Lockstep (10 R39 item 7). -/

section
variable {s t : State}

/-- Lockstep in terms of the reader, whatever the fuel. -/
theorem lockstep_iff : Lockstep s ↔
    ∃ r, Reads s.channels s.pixels (s.out.drop 14) Reader.initial r ∧ InStep r s ∧
      (r.pixelsWithRun s).length = s.pixIdx.toNat ∧
      ∀ j < s.pixIdx.toNat, ∃ p, fetchPixel s j = .ok p ∧ (r.pixelsWithRun s)[j]? = some p := by
  constructor
  · rintro ⟨r, hread, hprev, hslots, hcount, hpixels⟩
    exact ⟨r, replay_fuel hread le_rfl, ⟨hprev, hslots⟩, hcount, hpixels⟩
  · rintro ⟨r, hread, ⟨hprev, hslots⟩, hcount, hpixels⟩
    exact ⟨r, replay_fuel hread (by simp), hprev, hslots, hcount, hpixels⟩

/-- Every PIXEL step keeps the lockstep, with one pixel more. -/
theorem Lockstep.pixel {p : Pixel} (hinv : WalkInvariant s) (h : Lockstep s) (hidx : s.pixIdx.toNat < s.pixels)
    (hp : fetchPixel s s.pixIdx.toNat = .ok p) : Lockstep ((afterPixel s p).emitAll (selectedBytes s p)) := by
  obtain ⟨r, hread, hstep, hcount, hpixels⟩ := lockstep_iff.1 h
  obtain ⟨r', hread', ⟨hprev', hslots'⟩, hnext⟩ := hstep.pixel hinv hp hcount hidx
  have hsucc := (pixIdx_succ hidx).1
  have hsame : r'.pixelsWithRun ((afterPixel s p).emitAll (selectedBytes s p)) = r.pixelsWithRun s ++ [p] := by
    rw [← hnext]
    simp [Reader.pixelsWithRun]
  refine lockstep_iff.2 ⟨r', ?_, ⟨by simpa using hprev', by simpa using hslots'⟩, ?_, fun j hj => ?_⟩
  · rw [State.emitAll_out, afterPixel_out, List.drop_append_of_le_length hinv.headerComplete]
    simpa [State.pixels] using hread.append hread'
  · rw [hsame, List.length_append, hcount, State.emitAll_pixIdx, afterPixel_pixIdx, hsucc]
    rfl
  · rw [State.emitAll_pixIdx, afterPixel_pixIdx, hsucc] at hj
    rw [hsame, fetchPixel_afterPixel]
    rcases Nat.lt_succ_iff_lt_or_eq.1 hj with hlt | rfl
    · obtain ⟨q, hq, hget⟩ := hpixels j hlt
      exact ⟨q, hq, by rw [List.getElem?_append_left (by omega), hget]⟩
    · exact ⟨p, hp, by rw [List.getElem?_append_right hcount.le, hcount]; simp⟩

/-- Before the first pixel the stream holds no chunk, and the reader is as it starts (44 R181). -/
theorem State.started_lockstep (s : State) : Lockstep s.started := by
  rw [State.started, State.emitAll_eq]
  refine lockstep_iff.2 ⟨Reader.initial, .nil, ⟨rfl, fun i => ?_⟩, rfl, nofun⟩
  exact (Reader.slot_initial i).trans (lookup_of_invalid (slotAt_emptyCache_valid s.draws i)).symm

/-- The lockstep is about the outside world only as far as the pixels before PIX_IDX are the same. -/
theorem Lockstep.withOutside (h : Lockstep s) {pix : Memory}
    (hfetch : ∀ j < s.pixIdx.toNat, ∀ p, fetchPixel s j = .ok p → fetchPixel { s with pix := pix } j = .ok p)
    (moves : List Move) (busData : Word) (ready : Bool) (levels : List Bool) :
    Lockstep { s with
      moves := moves, busData := busData, sinkReady := ready, sinkLevels := levels, pix := pix } := by
  obtain ⟨r, hread, hprev, hslots, hcount, hpixels⟩ := h
  refine ⟨r, hread, hprev, hslots, hcount, fun j hj => ?_⟩
  obtain ⟨p, hp, hget⟩ := hpixels j hj
  exact ⟨p, hfetch j hj p hp, hget⟩

theorem Lockstep.taken (h : Lockstep s) (rest : List Move) : Lockstep { s.sinkTick with moves := rest } := by
  unfold State.sinkTick
  split <;> exact h.withOutside (fun _ _ _ hp => hp) ..

/-- A write outside the buffer leaves every pixel of the image (20 R64). -/
theorem fetchPixel_pixWrite {a : Nat} {v : Byte} (hv : s.validation = 0#8) (hout : inBuffer s a = false) {j : Nat}
    (hj : j < s.pixels) {p : Pixel} (hp : fetchPixel s j = .ok p) :
    fetchPixel { s with pix := s.pix.write a v } j = .ok p := by
  have hbyte (b : Nat) (hb : b < s.channels.toNat) (w : Byte) (h : pixByte s (s.channels.toNat * j + b) = .ok w) :
      pixByte { s with pix := s.pix.write a v } (s.channels.toNat * j + b) = .ok w := by
    have hlt := pixelByte_lt_bufferLength hj hb
    have hne : s.src.toNat + (s.channels.toNat * j + b) ≠ a := by
      rcases inBuffer_eq_false.1 hout with hlow | hhigh <;> omega
    rw [pixByte_eq_ok] at h ⊢
    simpa only [Memory.read_write_other s.pix a _ v hne] using h
  obtain ⟨hr, hg, hb, ha⟩ := (fetchPixel_eq_ok s j p).1 hp
  have ⟨hthree, _⟩ := channels_toNat_bounds (channels_of_validation hv)
  refine (fetchPixel_eq_ok _ j p).2 ⟨hbyte 0 (by omega) _ hr, hbyte 1 (by omega) _ hg, hbyte 2 (by omega) _ hb, ?_⟩
  by_cases hc : s.channels = 4#8
  · simp only [hc, if_true] at ha ⊢
    exact hc ▸ hbyte 3 (by simp [hc]) _ (by simpa [hc] using ha)
  · simpa only [hc, if_false] using ha

end

/-- Settles O53: in WALK a PIXEL step, or a move that leaves OUT and the image; a START begins the lockstep. -/
theorem stepKeepsReaderInLockstep : Obligations.StepKeepsReaderInLockstep := by
  unfold Obligations.StepKeepsReaderInLockstep
  intro s t hinv hlock hstep hwalk
  have htaken (rest : List Move) (h : ({ s.sinkTick with moves := rest } : State).phase = .walk) :
      Lockstep { s.sinkTick with moves := rest } := (hlock (by simpa using h)).taken rest
  cases step_cases hstep with
  | encoder rest pending hencoder =>
    rcases encoderStep_cases hencoder with rfl | ⟨hphase, hidx, p, hp, rfl⟩ | ⟨-, -, rfl⟩
    · exact htaken rest hwalk
    · rw [afterPixel_emitAll]
      exact (htaken rest hphase).pixel ((hinv.taken (suffix_of_pending pending)).walking hphase) hidx hp
    · cases hwalk
  | commandWaits m rest pending _ _ ht =>
    rw [ht, ← State.sinkTick_withMoves] at hwalk ⊢
    exact htaken _ hwalk
  | command m rest i pending _ asked _ hexec =>
    rcases asked with ⟨rfl, -⟩ | ⟨w, rfl, -⟩
    · rcases execStart_cases hexec with ⟨-, rfl⟩ | ⟨-, -, rfl⟩ | ⟨hphase, hv, -⟩
      · exact htaken rest hwalk
      · cases hwalk
      · have hstarted := (execStart_eq_started hphase hv).symm.trans hexec
        cases hstarted
        exact State.started_lockstep _
    · have hbench := hinv.noBenchMove
      simp [pending, Move.isBench] at hbench
  | regWrite offset w rest r pending _ _ ht =>
    rw [ht] at hwalk ⊢
    rw [regWrite_phase] at hwalk
    rw [regWrite_of_walk hwalk]
    exact htaken rest hwalk
  | ignoredWrite offset w rest pending ht =>
    rw [ht] at hwalk ⊢
    exact htaken rest hwalk
  | read offset rest pending ht =>
    rw [ht] at hwalk ⊢
    exact (htaken rest hwalk).withOutside (fun _ _ _ hp => hp) ..
  | pixWrite a v rest pending _ outside ht =>
    rw [ht] at hwalk ⊢
    have hphase : ({ s.sinkTick with moves := rest } : State).phase = .walk := hwalk
    have hw := (hinv.taken (pending ▸ List.suffix_cons _ rest : rest <:+ s.moves)).walking hphase
    exact (htaken rest hphase).withOutside
      (fun j hj p hp => fetchPixel_pixWrite hw.validated (outside hphase) (hj.trans_le hw.indexInRange) hp) ..
  | reset rest pending ht =>
    rw [ht] at hwalk
    cases hwalk

end Sys2Proof.Machine

/-! The whole encode (42 section 4): the walk pixel by pixel, Encode as the steps of a run, the size of the output, the
round trip through the reader, and a uniform image. -/

namespace Sys2Proof.Machine

/-! The walk. -/

section
variable {s u v : State}

@[simp] theorem pixels_afterPixel (s : State) (p : Pixel) (bs : List Byte) :
    ((afterPixel s p).emitAll bs).pixels = s.pixels := by
  simp [State.pixels]

/-- A PIXEL step takes one of the pixels that are left. -/
theorem pixIdx_afterPixel_add {s : State} {n : Nat} (h : s.pixIdx.toNat + (n + 1) ≤ s.pixels) (p : Pixel)
    (bs : List Byte) : ((afterPixel s p).emitAll bs).pixIdx.toNat + n = s.pixIdx.toNat + (n + 1) := by
  rw [State.emitAll_pixIdx, afterPixel_pixIdx, (pixIdx_succ (by omega)).1]
  omega

/-- What every PIXEL step below the last pixel keeps holds after a walk that stays below it. -/
theorem walkPixels_keeps_below {P : State → Prop}
    (hP : ∀ s p, P s → s.pixIdx.toNat < s.pixels → fetchPixel s s.pixIdx.toNat = .ok p →
      P ((afterPixel s p).emitAll (selectedBytes s p)))
    (n : Nat) {s u : State} (hs : P s) (hn : s.pixIdx.toNat + n ≤ s.pixels) (hw : walkPixels n s = .next u) :
    P u ∧ u.pixIdx.toNat = s.pixIdx.toNat + n := by
  induction n generalizing s with
  | zero => cases hw; exact ⟨hs, rfl⟩
  | succ n ih =>
    rw [walkPixels] at hw
    split at hw
    · next t ht =>
      obtain ⟨p, hp, rfl⟩ := pixelStep_eq_next ht
      have hnext := pixIdx_afterPixel_add hn p (selectedBytes s p)
      rw [← hnext]
      exact ih (hP s p hs (by omega) hp) (by rwa [hnext, pixels_afterPixel]) hw
    · next o hne => exact absurd hw (hne u)

@[simp] theorem State.started_pixels (s : State) : s.started.pixels = s.pixels := by
  simp [State.started, State.pixels]

@[simp] theorem State.started_pixIdx (s : State) : s.started.pixIdx = 0#64 := by
  simp [State.started]

/-- What holds before the first pixel, and is kept by every PIXEL step, holds after the last pixel. -/
theorem encode_keeps {P : State → Prop}
    (hP : ∀ s p, P s → s.pixIdx.toNat < s.pixels → fetchPixel s s.pixIdx.toNat = .ok p →
      P ((afterPixel s p).emitAll (selectedBytes s p)))
    (hs : P s.started) (hw : walkPixels s.started.pixels s.started = .next u) : P u ∧ u.pixIdx.toNat = s.pixels := by
  have hkept := walkPixels_keeps_below hP s.started.pixels hs (by simp) hw
  simpa using hkept

/-- The descriptor, the parameters and PIX stay over the walk (10 R24). -/
theorem encode_keeps_image (hw : walkPixels s.started.pixels s.started = .next u) :
    SameDescriptor s u ∧ SamePixels s u :=
  (encode_keeps (P := fun u => SameDescriptor s u ∧ SamePixels s u)
    (fun t p h _ _ => by simpa [SameDescriptor, SamePixels] using h)
    (by simp [SameDescriptor, SamePixels, State.started]) hw).1

/-! Encode as a function (42 R154). -/

/-- START, the walk, and FINISH make up an encode. -/
theorem encodeFrom_of_walk (h : s.phase ≠ .walk) (hv : s.validation = 0#8)
    (hw : walkPixels s.started.pixels s.started = .next u) (hf : finishStep u = .next v) : encodeFrom s = .next v := by
  rw [encodeFrom, execStart_eq_started h hv]
  have hphase : s.started.phase = .walk := rfl
  simp only [hphase, if_true, hw, hf]

theorem prepared_pixels (c : Config) (d : Descriptor) (pix : Memory) :
    (prepared c d pix).pixels = d.width.toNat * d.height.toNat := rfl

theorem prepared_channels (c : Config) (d : Descriptor) (pix : Memory) : (prepared c d pix).channels = d.channels := rfl

/-- A successful Encode: the walk, and the flushed run after it. -/
theorem encodeImage_success {c : Config} {d : Descriptor} {pix : Memory} {out : List Byte}
    (h : encodeImage c d pix = .next (0#8, out)) :
    (prepared c d pix).validation = 0#8 ∧
    ∃ u, walkPixels (prepared c d pix).started.pixels (prepared c d pix).started = .next u ∧
      out = u.out ++ (flushed u).flatMap fun i => (encode 0#32 i).bytes := by
  unfold encodeImage at h
  split at h
  · next v hv =>
    simp only [Host.Outcome.next.injEq, Prod.mk.injEq] at h
    obtain ⟨herr, rfl⟩ := h
    have hphase : (prepared c d pix).phase ≠ .walk := nofun
    rcases encodeFrom_cases hphase hv with ⟨hinvalid, rfl⟩ | ⟨hvalid, u, hw, hf⟩
    · exact absurd herr hinvalid
    · rw [finishStep_eq] at hf
      cases hf
      exact ⟨hvalid, u, hw, State.emitAll_out ..⟩
  · cases h
  · cases h

end

/-! Encode by steps (42 section 4). -/

section
variable {s t u : State}

/-- The PIXEL steps of an undisturbed block are its steps, as long as pixels remain. -/
theorem run_of_walkPixels (n : Nat) (hquiet : s.undisturbed) (hwalk : s.phase = .walk)
    (hn : s.pixIdx.toNat + n ≤ s.pixels) (hw : walkPixels n s = .next u) : core.run n s = .next u := by
  induction n generalizing s with
  | zero => cases hw; rfl
  | succ n ih =>
    rw [walkPixels] at hw
    split at hw
    · next t ht =>
      obtain ⟨p, hp, rfl⟩ := pixelStep_eq_next ht
      have hidx : s.pixIdx.toNat < s.pixels := by omega
      rw [core_run_succ (step_of_atPixel ⟨hquiet, hwalk, hidx, hp⟩)]
      exact ih (by simpa [State.undisturbed] using hquiet) (by simpa using hwalk)
        (by rwa [pixIdx_afterPixel_add hn, pixels_afterPixel]) hw
    · next o hne => exact absurd hw (hne u)

/-- After START, Encode takes a step a pixel, and FINISH. -/
theorem run_started (hquiet : s.started.undisturbed) (hphase : s.phase ≠ .walk) (hv : s.validation = 0#8)
    (he : encodeFrom s = .next t) : core.run (s.pixels + 1) s.started = .next t := by
  rcases encodeFrom_cases hphase he with ⟨hinvalid, -⟩ | ⟨-, u, hw, hf⟩
  · exact absurd hv hinvalid
  · obtain ⟨⟨hquiet', hwalk', hpixels⟩, hidx⟩ :=
      encode_keeps (P := fun u => u.undisturbed ∧ u.phase = .walk ∧ u.pixels = s.pixels)
        (fun a p h _ _ => by simpa [State.undisturbed, State.pixels] using h) ⟨hquiet, rfl, by simp⟩ hw
    have hfinish : step u = .next t := by
      rw [step_of_finish hquiet' hwalk' (hidx.trans hpixels.symm), ← finishStep_eq, hf]
    have hrun := run_of_walkPixels _ hquiet rfl (by simp) hw
    rw [State.started_pixels] at hrun
    rw [core_run_add hrun]
    exact core_run_succ hfinish 0

/-- The step that takes the pending START, and then Encode. -/
theorem run_of_encodeFrom (hs : s.startPending) (hphase : s.phase ≠ .walk) (hv : s.validation = 0#8)
    (he : encodeFrom { s with moves := [] } = .next t) : core.run (s.pixels + 2) s = .next t := by
  have ⟨_, hlevels, hready⟩ := hs
  have hstart := (step_of_startPending hs).trans (execStart_eq_started (s := { s with moves := [] }) hphase hv)
  have hquiet : ({ s with moves := [] } : State).started.undisturbed := by
    simp [State.undisturbed, State.started, hlevels, hready]
  have hpixels : ({ s with moves := [] } : State).pixels = s.pixels := rfl
  have hrun := run_started hquiet hphase hv he
  rw [hpixels] at hrun
  rw [core_run_succ hstart]
  exact hrun

/-- A walk over pixels that can all be fetched does not stop. -/
theorem walkPixels_of_readable (n : Nat) (hn : s.pixIdx.toNat + n ≤ s.pixels)
    (hfetch : ∀ i < s.pixels, ∃ p, fetchPixel s i = .ok p) : ∃ u, walkPixels n s = .next u := by
  induction n generalizing s with
  | zero => exact ⟨s, rfl⟩
  | succ n ih =>
    have hidx : s.pixIdx.toNat < s.pixels := by omega
    obtain ⟨p, hp⟩ := hfetch _ hidx
    rw [walkPixels_succ (pixelStep_of_fetch hp)]
    refine ih (by rwa [pixIdx_afterPixel_add hn, pixels_afterPixel]) fun i hi => ?_
    rw [fetchPixel_afterPixel]
    exact hfetch i (by rwa [pixels_afterPixel] at hi)

theorem fetchPixel_started (s : State) (i : Nat) : fetchPixel s.started i = fetchPixel s i :=
  fetchPixel_congr _ _ _ (by simp [State.started]) (by simp [State.started]) (by simp [State.started])
    (by simp [State.started])

/-- On a readable buffer Encode answers, in DONE and with the code of the validation (60 R210). -/
theorem encodeFrom_completes (hphase : s.phase ≠ .walk) (hr : s.pixReadable) :
    ∃ t, encodeFrom s = .next t ∧ t.phase = .done ∧ t.err = s.validation := by
  by_cases hv : s.validation = 0#8
  · obtain ⟨u, hw⟩ := walkPixels_of_readable s.started.pixels (s := s.started) (by simp) fun i hi => by
      rw [fetchPixel_started]
      exact fetchPixel_of_readable hv hr (by simpa using hi)
    have hf := finishStep_eq u
    obtain ⟨herr, -⟩ := encode_out_outLen hw hf
    exact ⟨_, encodeFrom_of_walk hphase hv hw hf, rfl, herr.trans hv.symm⟩
  · refine ⟨s.init.raiseErr s.validation, ?_, rfl, rfl⟩
    simp only [encodeFrom, execStart_of_invalid s hphase hv]
    rfl

end

/-- Settles O55: step by step, and without a pixel that cannot be fetched. -/
theorem runComputesEncode : Obligations.RunComputesEncode := by
  unfold Obligations.RunComputesEncode
  exact ⟨fun _ _ hs hphase hv he => run_of_encodeFrom hs hphase hv he,
    fun _ hphase hr => encodeFrom_completes hphase hr⟩

/-! The size of the output (30 section 6). -/

/-- Every byte after the first literal covers 62 pixels at most, and RUN those that no byte covers yet. -/
def CoversPixels (s : State) : Prop :=
  s.prevValid = true → s.pixIdx.toNat + 62 * (14 + (s.channels.toNat + 1)) ≤ 1 + 62 * s.out.length + s.run.toNat

/-- The first pixel is the literal; any other counts in RUN, or has a byte of its own. -/
theorem CoversPixels.pixel {s : State} {p : Pixel} (hinv : WalkInvariant s) (h : CoversPixels s)
    (hidx : s.pixIdx.toNat < s.pixels) : CoversPixels ((afterPixel s p).emitAll (selectedBytes s p)) := by
  have hnext := (pixIdx_succ hidx).1
  have hcap := hinv.runCapped
  intro _
  rw [State.emitAll_pixIdx, afterPixel_pixIdx, hnext, State.emitAll_channels, afterPixel_channels, State.emitAll_out,
    afterPixel_out, List.length_append, State.emitAll_run]
  cases hrun : continuesRun s p with
  | true =>
    obtain ⟨hprev, -⟩ := (continuesRun_iff s p).1 hrun
    have hcovers := h hprev
    simp only [selectedBytes_length_of_run hrun, afterPixel_of_run s p hrun, runAfter_eq]
    split_ifs with hfull
    · simp [hfull] at hcovers ⊢
      omega
    · have hsucc : (s.run + 1#6).toNat = s.run.toNat + 1 := by bv_omega
      omega
  | false =>
    simp only [selectedBytes_length_of_new hrun, afterPixel_of_new s p hrun]
    cases hprev : s.prevValid with
    | true =>
      have hcovers := h hprev
      have hchunk := one_le_classify_byteLength s p
      split_ifs with hnone
      · simp [hnone] at hcovers ⊢
        omega
      · simp
        omega
    | false =>
      have hheader := hinv.headerComplete
      have hzero := hinv.prevFromFirst.1 hprev
      rw [classify_of_noPrev hprev, literal_byteLength hinv.validated, hzero]
      simp
      omega

/-- Settles O57: the upper bound is the invariant's, the lower one counts the pixels a byte can cover. -/
theorem outputSizeBounds : Obligations.OutputSizeBounds := by
  unfold Obligations.OutputSizeBounds
  intro c d pix out h
  obtain ⟨hv, u, hw, rfl⟩ := encodeImage_success h
  obtain ⟨⟨hinv, hcovers⟩, hidx⟩ := encode_keeps (P := fun u => WalkInvariant u ∧ CoversPixels u)
    (fun s p hs hidx hp => ⟨hs.1.pixel hidx hp, hs.2.pixel hs.1 hidx⟩)
    ⟨State.started_walkInvariant hv, nofun⟩ hw
  obtain ⟨⟨-, -, -, hchannels, -⟩, -⟩ := encode_keeps_image hw
  have hpos := pixels_pos_of_validation hv
  have hprev : u.prevValid = true := Bool.eq_true_of_not_eq_false fun hnone => by
    rw [hinv.prevFromFirst.1 hnone] at hidx
    exact hpos.ne hidx
  have hlower := hcovers hprev
  have hupper := hinv.sizeBound
  have hcap := hinv.runCapped
  rw [hidx, hchannels, prepared_pixels, prepared_channels] at hlower hupper
  rw [prepared_pixels] at hpos
  have hflushed : ((flushed u).flatMap fun i => (encode 0#32 i).bytes).length = if u.run = 0#6 then 0 else 1 := by
    rw [flushed_bytes]
    split <;> rfl
  rw [List.length_append, hflushed]
  refine ⟨?_, hupper⟩
  split_ifs with hnone
  · simp only [hnone] at hlower
    simp at hlower
    omega
  · omega

/-! The round trip (44 R190). -/

section
variable {channels : Byte} {total : Nat}

/-- Every chunk produces a pixel at least. -/
theorem readChunk_outpx_lt {i : Instr} {r r' : Reader} (h : readChunk channels total i r = some r') :
    r.outpx.length < r'.outpx.length := by
  have hproduce (p : Pixel) : r.outpx.length < (r.produce p).outpx.length := by simp [Reader.produce]
  cases i with
  | hdr | start => cases h
  | rgb =>
    simp only [readChunk] at h
    split at h <;> cases h
    exact hproduce _
  | rgba =>
    simp only [readChunk] at h
    split at h <;> cases h
    exact hproduce _
  | index =>
    obtain ⟨p, -, rfl⟩ := Option.map_eq_some_iff.1 h
    exact hproduce _
  | diff =>
    obtain ⟨q, -, rfl⟩ := Option.map_eq_some_iff.1 h
    exact hproduce _
  | luma =>
    obtain ⟨q, -, rfl⟩ := Option.map_eq_some_iff.1 h
    exact hproduce _
  | run =>
    simp only [readChunk] at h
    split at h
    · split at h <;> cases h
      simp
    · cases h

theorem replay_outpx_le {n : Nat} {bs : List Byte} {r r' : Reader} (h : replay channels total n bs r = some r') :
    r.outpx.length ≤ r'.outpx.length := by
  induction n generalizing bs r with
  | zero => cases bs <;> cases h; exact le_rfl
  | succ n ih =>
    cases bs with
    | nil => cases h; exact le_rfl
    | cons b bs =>
      obtain ⟨m, i, rest, r₁, hm, -, hchunk, hrest⟩ := replay_cons h
      obtain rfl : n = m := by omega
      exact (readChunk_outpx_lt hchunk).le.trans (ih hrest)

/-- A stream that ends with the last pixel is read to its end by the reader's loop (44 R183). -/
theorem readLoop_of_replay {n m : Nat} {bs : List Byte} {r r' : Reader} (h : replay channels total n bs r = some r')
    (htotal : r'.outpx.length = total) (hm : bs.length ≤ m) : readLoop channels total m bs r = some r' := by
  induction m generalizing n bs r with
  | zero =>
    obtain rfl := List.eq_nil_of_length_eq_zero (Nat.le_zero.1 hm)
    rw [replay_nil] at h
    cases h
    rw [readLoop, if_pos ⟨htotal.ge, rfl⟩]
  | succ m ih =>
    cases bs with
    | nil =>
      rw [replay_nil] at h
      cases h
      rw [readLoop, if_pos htotal.ge, if_pos rfl]
    | cons b bs =>
      obtain ⟨n, i, rest, r₁, -, hread, hchunk, hrest⟩ := replay_cons h
      have hlength := decodeChunk_rest_length hread
      have hmore : ¬ total ≤ r.outpx.length := by
        have hlt := readChunk_outpx_lt hchunk
        have hle := replay_outpx_le hrest
        omega
      simp only [readLoop, if_neg hmore, hread, hchunk]
      exact ih hrest (by omega)

end

/-! The bytes of the pixels (44 R183). -/

/-- In a concatenation of lists of one length `n`, place `n * j + b` is place `b` of the `j`-th. -/
theorem getElem?_flatMap_of_length {α β : Type} {f : α → List β} {n : Nat} {l : List α}
    (hf : ∀ x ∈ l, (f x).length = n) (j : Nat) {b : Nat} (hb : b < n) :
    (l.flatMap f)[n * j + b]? = l[j]?.bind fun x => (f x)[b]? := by
  induction l generalizing j with
  | nil => simp
  | cons x l ih =>
    have hx := hf x (by simp)
    have htail := ih fun y hy => hf y (by simp [hy])
    rw [List.flatMap_cons]
    cases j with
    | zero => simp [List.getElem?_append_left (hx.symm ▸ hb : b < (f x).length)]
    | succ j =>
      have hplace : n * (j + 1) + b - n = n * j + b := by rw [Nat.mul_succ]; omega
      rw [List.getElem?_append_right (by rw [hx, Nat.mul_succ]; omega), hx, hplace, htail]
      rfl

theorem pixelBytes_length {channels : Byte} (h : channels = 3#8 ∨ channels = 4#8) (p : Pixel) :
    (pixelBytes channels p).length = channels.toNat := by
  rcases h with rfl | rfl <;> rfl

/-- The bytes of a fetched pixel are those of PIX (20 R54). -/
theorem pixelBytes_of_fetchPixel {s : State} {j b : Nat} {p : Pixel} (hc : s.channels = 3#8 ∨ s.channels = 4#8)
    (hp : fetchPixel s j = .ok p) (hb : b < s.channels.toNat) :
    s.pix.read (s.src.toNat + (s.channels.toNat * j + b)) = (pixelBytes s.channels p)[b]? := by
  have hread (k : Nat) (w : Byte) (h : pixByte s k = .ok w) : s.pix.read (s.src.toNat + k) = some w :=
    ((pixByte_eq_ok s k w).1 h).2
  obtain ⟨h0, h1, h2, h3⟩ := (fetchPixel_eq_ok s j p).1 hp
  rcases hc with hc | hc <;> simp only [hc] at hb h0 h1 h2 h3 ⊢
  · change b < 3 at hb
    interval_cases b
    · exact hread _ _ h0
    · exact hread _ _ h1
    · exact hread _ _ h2
  · change b < 4 at hb
    interval_cases b
    · exact hread _ _ h0
    · exact hread _ _ h1
    · exact hread _ _ h2
    · exact hread _ _ h3

theorem decodeHeader_headerBytes_append (s : State) (hv : s.validation = 0#8) (rest : List Byte) :
    decodeHeader s.config.magic (headerBytes s.config.magic s.width s.height s.channels s.colorspace ++ rest) =
      .ok (.hdr s.width s.height s.channels s.colorspace) := by
  obtain ⟨-, -, -, -, hvalid, -⟩ := validationReportsFirstViolation s.src s.width s.height s.channels s.colorspace
  obtain ⟨-, hw, hh, hc, hcs⟩ := hvalid.1 hv
  have hwf : (Instr.hdr s.width s.height s.channels s.colorspace).wf = true := by
    simp [Instr.wf, Instr.runInRange, Instr.headerDimensionsInRange, Instr.headerChannelsInRange,
      Instr.headerColorspaceInRange, hw, hh, hc, hcs]
  rw [← packHeader_eq_headerBytes]
  exact decodeHeader_packHeader_append _ _ _ _ _ hwf rest

/-- After the FINISH step the reader has read all of OUT and holds every pixel of the image. -/
theorem reads_finished {u : State} (hinv : WalkInvariant u) (hlock : Lockstep u) (hidx : u.pixIdx.toNat = u.pixels) :
    ∃ r, Reads u.channels u.pixels ((u.out ++ (flushed u).flatMap fun i => (encode 0#32 i).bytes).drop 14)
        Reader.initial r ∧ r.outpx.length = u.pixels ∧
      ∀ j < u.pixels, ∃ p, fetchPixel u j = .ok p ∧ r.outpx[j]? = some p := by
  obtain ⟨r, hread, hstep, hcount, hpixels⟩ := lockstep_iff.1 hlock
  rw [hidx] at hcount hpixels
  rw [List.drop_append_of_le_length hinv.headerComplete]
  exact ⟨r.caughtUp u, hread.append (reads_flushed hinv hstep hcount.le), hcount, hpixels⟩

/-- Decoding a stream of the image's header and chunks gives the bytes of the image's pixels. -/
theorem decodeStream_finished {u : State} (hinv : WalkInvariant u) {flush : List Byte} {r : Reader}
    (hread : Reads u.channels u.pixels ((u.out ++ flush).drop 14) Reader.initial r)
    (hcount : r.outpx.length = u.pixels) :
    decodeStream u.config.magic (u.out ++ flush) = some (r.outpx.flatMap (pixelBytes u.channels)) := by
  have hsplit : u.out ++ flush = headerBytes u.config.magic u.width u.height u.channels u.colorspace ++
      (u.out ++ flush).drop 14 := by
    rw [← hinv.headerFirst_append flush, List.take_append_drop]
  have hheader := decodeHeader_headerBytes_append u hinv.validated ((u.out ++ flush).drop 14)
  rw [← hsplit] at hheader
  rw [decodeStream, hheader]
  exact congrArg (Option.map _) (readLoop_of_replay hread hcount le_rfl)

/-- The pixels of the image, as bytes, are the buffer at SRC (20 R51). -/
theorem read_eq_pixelBytes {u : State} (hv : u.validation = 0#8) {pixels : List Pixel}
    (hfetched : ∀ j < u.pixels, ∃ p, fetchPixel u j = .ok p ∧ pixels[j]? = some p) {k : Nat}
    (hk : k < u.pixels * u.channels.toNat) :
    u.pix.read (u.src.toNat + k) = (pixels.flatMap (pixelBytes u.channels))[k]? := by
  have hc := channels_of_validation hv
  have hb := Nat.mod_lt k (lt_of_lt_of_le (by decide) (channels_toNat_bounds hc).1 : 0 < u.channels.toNat)
  obtain ⟨p, hp, hget⟩ := hfetched (k / u.channels.toNat) (Nat.div_lt_of_lt_mul (by rwa [Nat.mul_comm]))
  rw [← Nat.div_add_mod k u.channels.toNat, pixelBytes_of_fetchPixel hc hp hb,
    getElem?_flatMap_of_length (fun p _ => pixelBytes_length hc p) _ hb, hget]
  rfl

/-- Settles O58: at the end of the walk the reader lags by the pending run only, which FINISH flushes. -/
theorem decodingTheOutputGivesThePixels : Obligations.DecodingTheOutputGivesThePixels := by
  unfold Obligations.DecodingTheOutputGivesThePixels
  intro c d pix out h
  obtain ⟨hv, u, hw, rfl⟩ := encodeImage_success h
  obtain ⟨⟨hinv, hlock⟩, hidx⟩ := encode_keeps (P := fun u => WalkInvariant u ∧ Lockstep u)
    (fun s p hs hidx hp => ⟨hs.1.pixel hidx hp, hs.2.pixel hs.1 hidx hp⟩)
    ⟨State.started_walkInvariant hv, State.started_lockstep _⟩ hw
  obtain ⟨⟨hsrc, hwidth, hheight, hchannels, -⟩, hpix, hconfig⟩ := encode_keeps_image hw
  have hpixels : u.pixels = (prepared c d pix).pixels := by rw [State.pixels, hwidth, hheight]; rfl
  obtain ⟨r, hread, hcount, hfetched⟩ := reads_finished hinv hlock (hidx.trans hpixels.symm)
  have hlength : (r.outpx.flatMap (pixelBytes u.channels)).length = u.pixels * u.channels.toNat := by
    rw [List.length_flatMap,
      List.map_congr_left fun p _ => pixelBytes_length (channels_of_validation hinv.validated) p]
    simp [hcount]
  have hmagic : c.magic = u.config.magic := by rw [hconfig]; rfl
  rw [hmagic]
  refine ⟨_, decodeStream_finished hinv hread hcount, ?_, fun k hk => ?_⟩
  · rw [hlength, hpixels, hchannels, prepared_pixels, prepared_channels]
  · rw [hlength] at hk
    rw [← read_eq_pixelBytes hinv.validated hfetched hk, hpix, hsrc]
    rfl

/-! A uniform image (95 section 1). -/

/-- One run of 1 to 62 is one chunk, full or flushed. -/
theorem run_bytes {n : Nat} (hpos : 1 ≤ n) (hcap : n ≤ 62) {run : BitVec 6} (hrun : run.toNat = n % 62) :
    List.replicate (n / 62) 0xFD#8 ++ (if run = 0#6 then [] else [BitVec.ofNat 8 (0xBF + run.toNat)]) =
      [BitVec.ofNat 8 (0xBF + n)] := by
  rcases Nat.lt_or_eq_of_le hcap with hlt | rfl
  · rw [Nat.mod_eq_of_lt hlt] at hrun
    have hne : run ≠ 0#6 := by rintro rfl; simp at hrun; omega
    rw [Nat.div_eq_of_lt hlt, if_neg hne, hrun]
    rfl
  · have hzero : run = 0#6 := BitVec.eq_of_toNat_eq hrun
    rw [if_pos hzero]
    rfl

/-- The first pixel of an encode: its literal goes out, and it is PREV with no run pending (42 R142). -/
theorem pixelStep_started {s : State} {p : Pixel} (hp : fetchPixel s 0 = .ok p) :
    ∃ t, pixelStep s.started = .next t ∧
      t.out = headerBytes s.config.magic s.width s.height s.channels s.colorspace ++ literalBytes s.channels p ∧
      t.prev = p ∧ t.prevValid = true ∧ t.run = 0#6 ∧ t.pixIdx = 1#64 ∧ ∀ i, fetchPixel t i = fetchPixel s i := by
  have hnone : s.started.prevValid = false := rfl
  have hnew := continuesRun_of_noPrev hnone p
  have hbytes : selectedBytes s.started p = literalBytes s.channels p := by
    rw [selectedBytes_of_new hnew, if_pos s.started_run, classify_of_noPrev hnone, encode_literal_bytes]
    simp [State.started]
  have hfetch : fetchPixel s.started s.started.pixIdx.toNat = .ok p := by simpa [fetchPixel_started] using hp
  refine ⟨_, pixelStep_of_fetch hfetch, by rw [hbytes]; simp, ?_, ?_, ?_, ?_, fun i => ?_⟩
  · simp [afterPixel_of_new _ _ hnew]
  · simp [afterPixel_of_new _ _ hnew]
  · simp [afterPixel_of_new _ _ hnew]
  · simp
  · rw [fetchPixel_afterPixel, fetchPixel_started]

theorem encodeImage_of_encodeFrom {c : Config} {d : Descriptor} {pix : Memory} {v : State}
    (h : encodeFrom (prepared c d pix) = .next v) : encodeImage c d pix = .next (v.err, v.out) := by
  rw [encodeImage, h]

/-- Settles O60: the first pixel, and a stretch of the others, of which all but a full chunk is left to FINISH. -/
theorem uniformImageIsLiteralAndRun : Obligations.UniformImageIsLiteralAndRun := by
  unfold Obligations.UniformImageIsLiteralAndRun
  intro c d pix p hv hmin hmax hfetch
  obtain ⟨n, hn⟩ : ∃ n, d.width.toNat * d.height.toNat = n + 1 := ⟨_, (Nat.sub_add_cancel (by omega)).symm⟩
  obtain ⟨t, hfirst, htout, htprev, htvalid, htrun, htidx, htfetch⟩ := pixelStep_started (hfetch 0 (by omega))
  have hone : t.pixIdx.toNat = 1 := by rw [htidx]; rfl
  obtain ⟨u, hrest, ⟨huout, -⟩, hurun, -⟩ := walkPixels_of_equal n htvalid (by simp [htrun]) (by omega)
    (fun j hj => by rw [htfetch, htprev, hone]; exact hfetch (1 + j) (by omega))
  have hw : walkPixels (prepared c d pix).started.pixels (prepared c d pix).started = .next u := by
    rw [State.started_pixels, prepared_pixels, hn, walkPixels_succ hfirst, hrest]
  have hf := finishStep_eq u
  have hzero : t.run.toNat = 0 := by rw [htrun]; rfl
  rw [hzero, Nat.zero_add] at hurun huout
  obtain ⟨herr, -⟩ := encode_out_outLen hw hf
  rw [encodeImage_of_encodeFrom (encodeFrom_of_walk nofun hv hw hf), herr, hn, Nat.add_sub_cancel,
    ← run_bytes (by omega) (by omega) hurun, ← flushed_bytes]
  simp only [State.emitAll_out, huout, htout, List.append_assoc]
  rfl

end Sys2Proof.Machine

/-! What a run depends on (10_state section 11): two undisturbed blocks that differ only in what no step reads take the
same steps. -/

namespace Sys2Proof.Machine

/-- Two undisturbed blocks that differ at most in PREV while it is invalid, in the pixels of invalid slots, in the count
of free values and in the answer of the host's last read. -/
structure SameRun (s t : State) : Prop where
  quiet : s.undisturbed
  frame : t = { s with prev := t.prev, cache := t.cache, busData := t.busData, draws := t.draws }
  prev : s.prevValid = true → t.prev = s.prev
  slots : ∀ i, lookup t.cache i = lookup s.cache i

/-- Two outcomes a host cannot tell apart. -/
inductive SameOutcome : Host.Outcome State Fault Refusal → Host.Outcome State Fault Refusal → Prop
  | next {s t : State} (h : SameRun s t) : SameOutcome (.next s) (.next t)
  | refused (r : Refusal) : SameOutcome (.refused r) (.refused r)

section
variable {s t : State}

theorem SameRun.quiet_right (h : SameRun s t) : t.undisturbed := by
  rw [h.frame]
  exact h.quiet

theorem SameRun.visible_eq (h : SameRun s t) : s.visible = t.visible := by
  rw [h.frame]
  rfl

theorem SameRun.fetchPixel_eq (h : SameRun s t) (i : Nat) : fetchPixel t i = fetchPixel s i := by
  rw [h.frame]
  rfl

/-- The selector reads PREV only when it is valid, and slots only when they are (41 R123; 42 R142, R143). -/
theorem SameRun.selected_eq (h : SameRun s t) (p : Pixel) :
    continuesRun t p = continuesRun s p ∧ selected t p = selected s p := by
  obtain ⟨-, hframe, hprev, hslots⟩ := h
  have hhit : hit t.cache p = hit s.cache p := by rw [hit, hit, hslots]
  rw [hframe]
  cases hvalid : s.prevValid with
  | false => simp [selected, continuesRun, flushed, classify, literal, hvalid]
  | true => simp [selected, continuesRun, flushed, classify, literal, hvalid, hhit, hprev hvalid]

/-- The same chunks go out, and the pixel is stored and becomes PREV on both sides, or extends the run on both. -/
theorem SameRun.pixel (h : SameRun s t) (p : Pixel) :
    SameRun ((afterPixel s p).emitAll (selectedBytes s p)) ((afterPixel t p).emitAll (selectedBytes t p)) := by
  obtain ⟨hcont, hselected⟩ := h.selected_eq p
  have hbytes : selectedBytes t p = selectedBytes s p := by rw [selectedBytes, selectedBytes, hselected]
  obtain ⟨hquiet, hframe, hprev, hslots⟩ := h
  rw [hbytes]
  cases hrun : continuesRun s p with
  | true =>
    rw [afterPixel_of_run s p hrun, afterPixel_of_run t p (hcont.trans hrun), State.emitAll_eq, State.emitAll_eq]
    refine ⟨hquiet, ?_, hprev, hslots⟩
    rw [hframe]
    rfl
  | false =>
    rw [afterPixel_of_new s p hrun, afterPixel_of_new t p (hcont.trans hrun), State.emitAll_eq, State.emitAll_eq]
    refine ⟨hquiet, ?_, fun _ => rfl, fun i => ?_⟩
    · rw [hframe]
    · by_cases hi : i = hash p
      · simp only [hi, lookup_storePixel_same]
      · simp only [lookup_storePixel_other _ _ _ hi, hslots]

theorem SameRun.finishStep_same (h : SameRun s t) : SameOutcome (finishStep s) (finishStep t) := by
  have hflushed : flushed t = flushed s := by rw [h.frame]; rfl
  obtain ⟨hquiet, hframe, hprev, hslots⟩ := h
  rw [finishStep_eq, finishStep_eq, hflushed, State.emitAll_eq, State.emitAll_eq]
  refine .next ⟨hquiet, ?_, hprev, hslots⟩
  rw [hframe]

theorem SameRun.pixelStep_same (h : SameRun s t) : SameOutcome (pixelStep s) (pixelStep t) := by
  have hidx : t.pixIdx = s.pixIdx := by rw [h.frame]
  have hfetch := h.fetchPixel_eq t.pixIdx.toNat
  rw [hidx] at hfetch
  cases hp : fetchPixel s s.pixIdx.toNat with
  | error r =>
    rw [pixelStep, pixelStep, hidx, hfetch, hp]
    exact .refused r
  | ok p =>
    rw [pixelStep_of_fetch hp, pixelStep_of_fetch (hidx.symm ▸ hfetch.trans hp)]
    exact .next (h.pixel p)

/-- The enabled step is the same, and so is what it answers (42 R140). -/
theorem SameRun.step_same (h : SameRun s t) : SameOutcome (step s) (step t) := by
  have hphase : t.phase = s.phase := by rw [h.frame]
  have hidx : t.pixIdx = s.pixIdx := by rw [h.frame]
  have hpixels : t.pixels = s.pixels := by rw [h.frame]; rfl
  rw [step_of_undisturbed h.quiet, step_of_undisturbed h.quiet_right]
  by_cases hwalk : s.phase = .walk
  · simp only [encoderStep, hphase, hidx, hpixels, offered_ready _ s _ h.quiet.ready,
      offered_ready _ t _ h.quiet_right.ready, hwalk, if_true]
    split_ifs
    · exact h.pixelStep_same
    · exact h.finishStep_same
    · exact .next h
  · rw [encoderStep_of_quiescent s hwalk, encoderStep_of_quiescent t (hphase ▸ hwalk)]
    exact .next h

/-! Runs. -/

theorem core_run_refused {r : Refusal} (h : step s = .refused r) (k : Nat) : core.run (k + 1) s = .refused r := by
  have h' : core.step s = .refused r := h
  simp [Host.Core.run, h']

/-- A run is alike if its first step is, and the runs from there are. -/
theorem run_same_of_step {k : Nat} (h : SameOutcome (step s) (step t))
    (hrest : ∀ s t, SameRun s t → SameOutcome (core.run k s) (core.run k t)) :
    SameOutcome (core.run (k + 1) s) (core.run (k + 1) t) := by
  generalize hs : step s = a at h
  generalize ht : step t = b at h
  cases h with
  | next h =>
    rw [core_run_succ hs, core_run_succ ht]
    exact hrest _ _ h
  | refused r =>
    rw [core_run_refused hs, core_run_refused ht]
    exact .refused r

theorem SameRun.run_same (k : Nat) (h : SameRun s t) : SameOutcome (core.run k s) (core.run k t) := by
  induction k generalizing s t with
  | zero => exact .next h
  | succ k ih => exact run_same_of_step h.step_same fun _ _ h => ih h

/-- INIT hides what the block did before: the START step leaves two blocks alike that have one image (40 R101). -/
theorem start_same (hs : s.startPending) (ht : t.startPending) (hps : s.phase ≠ .walk) (hpt : t.phase ≠ .walk)
    (himage : SameDescriptor s t) (hpixels : SamePixels s t) : SameOutcome (step s) (step t) := by
  obtain ⟨hsrc, hwidth, hheight, hchannels, hcolorspace⟩ := himage
  obtain ⟨hpix, hconfig⟩ := hpixels
  have ⟨_, hslevels, hsready⟩ := hs
  have ⟨_, htlevels, htready⟩ := ht
  have hvalid : t.validation = s.validation := by
    rw [State.validation, hsrc, hwidth, hheight, hchannels, hcolorspace]
    rfl
  have hempty (n m : Nat) (i : BitVec 6) : lookup (emptyCache n) i = lookup (emptyCache m) i := by
    rw [lookup_of_invalid (slotAt_emptyCache_valid n i), lookup_of_invalid (slotAt_emptyCache_valid m i)]
  rw [step_of_startPending hs, step_of_startPending ht]
  by_cases hv : s.validation = 0#8
  · rw [execStart_eq_started (s := { s with moves := [] }) hps hv,
      execStart_eq_started (s := { t with moves := [] }) hpt (hvalid.trans hv), State.started, State.started,
      State.emitAll_eq, State.emitAll_eq]
    refine .next ⟨⟨rfl, hslevels, hsready⟩, ?_, nofun, hempty _ _⟩
    simp [State.init, hsrc, hwidth, hheight, hchannels, hcolorspace, hpix, hconfig, hslevels, htlevels, hsready, htready]
  · rw [execStart_of_invalid { s with moves := [] } hps hv,
      execStart_of_invalid { t with moves := [] } hpt (hvalid.symm ▸ hv)]
    refine .next ⟨⟨rfl, hslevels, hsready⟩, ?_, nofun, hempty _ _⟩
    simp [State.raiseErr, State.init, State.validation, hsrc, hwidth, hheight, hchannels, hcolorspace, hpix, hconfig,
      hslevels, htlevels, hsready, htready]

end

/-- Settles O59: the START step makes the blocks alike, and every step after it keeps them so. -/
theorem runDependsOnDescriptorAndPixelsAlone : Obligations.RunDependsOnDescriptorAndPixelsAlone := by
  unfold Obligations.RunDependsOnDescriptorAndPixelsAlone
  intro s t hs ht hps hpt hconfig hsrc hwidth hheight hchannels hcolorspace hpix k
  have hrun := run_same_of_step (k := k) (start_same hs ht hps hpt
    ⟨hsrc.symm, hwidth.symm, hheight.symm, hchannels.symm, hcolorspace.symm⟩ ⟨hpix.symm, hconfig.symm⟩)
    fun _ _ h => h.run_same k
  refine ⟨fun u hu => ?_, fun r hr => ?_⟩
  · rw [hu] at hrun
    generalize core.run (k + 1) t = o at hrun
    cases hrun with
    | next h => exact ⟨_, rfl, h.visible_eq⟩
  · rw [hr] at hrun
    generalize core.run (k + 1) t = o at hrun
    cases hrun
    rfl

end Sys2Proof.Machine
